-- ==== Sys2Proof/Word.lean ====
section
/-! DEFINITION. The word types of the chip8rb core (spec 00_scope.md R5, R7): every value is unsigned. -/

namespace Sys2Proof

/-- An 8-bit value: a general register, a memory cell, the immediate `kk` (R5, V_WIDTH). -/
abbrev Byte := BitVec 8

/-- A 16-bit value: `I`, `pc`, a stack entry, an instruction word, `ERRINFO` (R5). -/
abbrev Word := BitVec 16

/-- The 12-bit address immediate `nnn` (R51). -/
abbrev Addr12 := BitVec 12

/-- The index of a general register: all sixteen values are legal (R10, R58). -/
abbrev RegIx := Fin 16

end Sys2Proof
end

