-- ==== Sys2Proof/Config.lean ====
section
/-! DEFINITION. The implementation parameters of the hardware (spec 00_scope.md R5) and its one free value, FONT. -/

namespace Sys2Proof.Config

/-- `MEM_SIZE`: addresses 0x000 to 0xFFF (R5, R15). -/
def memSize : Nat := 4096

/-- `LOAD_BASE`: where the image is copied, and the reset value of `pc` (R5, R13). -/
def loadBase : Nat := 0x200

/-- `IMAGE_MAX`: the longest image accepted, `MEM_SIZE - LOAD_BASE` = 3584 (R5, R45). -/
def imageMax : Nat := memSize - loadBase

/-- `FONT_SIZE`: 16 glyphs of 5 bytes, at `FONT_BASE` = 0 (R5, R20). -/
def fontSize : Nat := 80

/-- `FB_COLS` (R5, R16). -/
def fbCols : Nat := 64

/-- `FB_ROWS` (R5, R16). -/
def fbRows : Nat := 32

/-- `STACK_DEPTH` (R5, R14; the spec's decision D1). UNVERIFIED, log 6. -/
def stackDepth : Nat := 16

/-- The free value behind the parameter `FONT[0..79]` (R5, R20; D13: OPEN). No body, so nothing can be proved
of a glyph's shape. `Machine.fontByte` puts the spec's one constraint on it. DESIGN CHOICE, log 3. -/
opaque fontRaw : Nat → Byte

end Sys2Proof.Config
end

