-- ==== Sys2Proof/Machine/State.lean ====
section
/-! DEFINITION. The state of the machine (spec 10_state.md R10 to R19), all of it plain data, the reasons a step of
the model can stop, and the state right after reset. -/

namespace Sys2Proof.Machine

/-- `MEM` (R15) as a list of address and byte pairs in one canonical form (`Memory.wf`, Machine/Memory.lean):
addresses strictly rising, none equal to what an unlisted address reads as. DESIGN CHOICE, log 20. -/
abbrev Memory := List Host.Cell

/-- `FB` (R16): 64 columns of 32 one-bit pixels, the first index the column, false = off, true = on.
UNVERIFIED, the spec's decision D3, log 8. -/
abbrev FrameBuffer := Vector (Vector Bool Config.fbRows) Config.fbCols

/-- The values of `ERR` (R17, R110): six, and no seventh (93_implementation_defined.md U17). Their numbers are
`ErrorKind.code` (Machine/Ops.lean). UNVERIFIED, the spec's decision D9, log 5. -/
inductive ErrorKind where
  /-- `None`: the machine is not halted. -/
  | noError
  | unimplementedOpcode
  | addressOutOfRange
  | stackUnderflow
  | stackOverflow
  | imageTooLarge
deriving DecidableEq, Repr

/-- The errors the machine can raise, with the payload the source gives them (R110). -/
inductive MachineError where
  /-- Decode: the fetched word selects no row of the opcode map (R55). -/
  | unimplementedOpcode (op : Word)
  /-- A memory or frame-buffer access outside bounds (R31, R32, R43). -/
  | addressOutOfRange
  /-- `RET` with the call stack empty (R70). -/
  | stackUnderflow
  /-- `CALL` with the call stack full (R71). -/
  | stackOverflow
  /-- Reset with an image longer than 3584 bytes (R131). -/
  | imageTooLarge
deriving DecidableEq, Repr

/-- Everything the spec gives the machine, and nothing else (R18). -/
structure State where
  /-- `V[0]` to `V[15]` (R10); `V[15]` is also the collision flag `VF` (R11). -/
  v : Vector Byte 16
  /-- `I`, the index register (R12). -/
  i : Word
  /-- `pc`, the byte address of the instruction being fetched and executed (R13). -/
  pc : Word
  /-- `STK`, saved program counters, bottom first, the last element the top (R14). -/
  stk : List Word
  /-- `MEM` (R15). -/
  mem : Memory
  /-- `FB` (R16). -/
  fb : FrameBuffer
  /-- `HALT` (R17): true = halted. -/
  halt : Bool
  /-- `ERR` (R17). -/
  err : ErrorKind
  /-- `ERRINFO` (R17). -/
  errInfo : Word
deriving DecidableEq, Repr

/-- The reasons a step of the model stops with a fault: none. Every error of the spec is an entry to the halted
state, which the spec describes whole (60_exceptions.md R111, R112), so a step that raises answers a NEXT state
with `HALT`, `ERR` and `ERRINFO` written, and a step of a halted machine answers the same state (R114). DEDUCED, safe,
logs 1 and 2. -/
inductive Fault where
deriving DecidableEq, Repr

/-- The reasons a step of the model is refused. -/
inductive Refusal where
  /-- An instruction that has no meaning in the model yet. Raised by no arm of `exec`: every instruction has its
  meaning. Safe. -/
  | notModelled (mnemonic : String)
deriving DecidableEq, Repr

/-- The machine right after reset with an empty image (R19, R130, R131): `pc` at 0x200, everything else zero or empty,
memory with nothing listed (an unlisted address reads as reset leaves it). The zeros of `V`, `I`, `FB` and the empty
`STK` are the spec's own decision D8: UNVERIFIED, log 4. A program comes from `resetWith` (Machine/HostInterface.lean,
log 21). -/
def State.reset : State where
  v := Vector.replicate 16 0
  i := 0
  pc := 0x200
  stk := []
  mem := []
  fb := Vector.replicate Config.fbCols (Vector.replicate Config.fbRows false)
  halt := false
  err := .noError
  errInfo := 0

end Sys2Proof.Machine
end

