-- ==== Sys2Proof/Machine/Memory.lean ====
section
/-! DEFINITION. Memory as data: what an unlisted address reads as, one byte read, one byte written, the canonical
form (spec 10_state.md R15, R19, R20; 20_memory.md R31, R32, R38). The bounds check is `memRead` and `memWrite`'s
(Machine/Ops.lean). -/

namespace Sys2Proof.Machine

/-- `FONT[a]` (R20): free but for the source's "low 3 bits unused", read as bits 2:0 equal to 0.
DESIGN CHOICE, log 3. -/
def fontByte (a : Nat) : Byte := Config.fontRaw a &&& 0xF8

/-- What an unlisted address reads as: the contents reset leaves there, `FONT` in 0x000 to 0x04F and zero elsewhere
(R19, R38). DEDUCED, log 20. -/
def unlisted (a : Nat) : Byte := if a < Config.fontSize then fontByte a else 0

/-- The byte held at an address, no bounds checked. -/
def Memory.cellAt : Memory → Nat → Byte
  | [], a => unlisted a
  | (b, w) :: rest, a => if a = b then w else Memory.cellAt rest a

/-- The memory without an entry for an address. -/
def Memory.erase (m : Memory) (a : Nat) : Memory := m.filter fun c => c.1 != a

/-- An entry put before the first one with a higher address. -/
def Memory.insertSorted (a : Nat) (w : Byte) : Memory → Memory
  | [] => [(a, w)]
  | c :: rest => if a < c.1 then (a, w) :: c :: rest else c :: Memory.insertSorted a w rest

/-- `MEM[a] <- w` and no other cell changes (R32): the entry is dropped when `w` is what an unlisted address
reads as, so that equal memories are equal lists. -/
def Memory.setCell (m : Memory) (a : Nat) (w : Byte) : Memory :=
  if w = unlisted a then m.erase a else (m.erase a).insertSorted a w

/-- The canonical form: addresses strictly rising, inside memory, and no entry equal to what an unlisted address
reads as. -/
abbrev Memory.wf (m : Memory) : Prop :=
  m.Pairwise (fun c d => c.1 < d.1) ∧ ∀ c ∈ m, c.1 < Config.memSize ∧ c.2 ≠ unlisted c.1

end Sys2Proof.Machine
end

