-- ==== Sys2Proof/Machine/Operands.lean ====
section
/-! DEFINITION. The operand forms (spec 30_encoding.md R58) and the arithmetic of the instructions
(41_register_immediate.md R83). Addresses and coordinates are exact natural numbers, never wrapped (20_memory.md R33). -/

namespace Sys2Proof.Machine

/-- Operand `Vx`: the value of general register `x` (R10). -/
def readV (s : State) (x : RegIx) : Byte := s.v[x]

/-- Immediate `nnn` zero-extended to 16 bits (R58). -/
def zext16 (nnn : Addr12) : Word := nnn.setWidth 16

/-- Operand `[I]` with the implicit offset `k` of an element: the address `I + k`, not truncated (R33, R35). -/
def effAddr (s : State) (k : Nat) : Nat := s.i.toNat + k

/-- Sprite bit `k`, counted from the left: bit 7 is the leftmost pixel (R90; UNVERIFIED, the spec's decision D3 and
GK2, log 8). -/
def spriteBit (b : Byte) (k : Nat) : Bool := b.getLsbD (7 - k)

/-- `(V[x] + kk) mod 256` (R81, R83a). -/
def addByte (a b : Byte) : Byte := BitVec.ofNat 8 ((a.toNat + b.toNat) % 256)

/-- `5 * V[x]`, at most 1275, exact in 16 bits, not masked to a digit (R100, R83b; UNVERIFIED, the spec's decision
D6, log 11). -/
def glyphAddress (b : Byte) : Word := BitVec.ofNat 16 (b.toNat * 5)

/-- The hundreds digit of a byte (R101, R83c). -/
def hundreds (b : Byte) : Byte := BitVec.ofNat 8 (b.toNat / 100)

/-- The tens digit of a byte (R101, R83c). -/
def tens (b : Byte) : Byte := BitVec.ofNat 8 (b.toNat / 10 % 10)

/-- The ones digit of a byte (R101, R83c). -/
def ones (b : Byte) : Byte := BitVec.ofNat 8 (b.toNat % 10)

/-- `(pc + 2) mod 65536`, the address of the next sequential instruction (R13, R71, R83d). -/
def nextPc (s : State) : Word := BitVec.ofNat 16 ((s.pc.toNat + 2) % 65536)

end Sys2Proof.Machine
end

