-- ==== Sys2Proof/Machine/Ops.lean ====
section
/-! DEFINITION. The named operations every meaning is written with: register, stack, memory and pixel access, raising
an error, and the sequencing of accesses that a raise cuts short (spec 00_scope.md R7, 20_memory.md R31, R32, R43,
60_exceptions.md R111, R112). -/

namespace Sys2Proof.Machine

/-! ## Writing one item of state -/

/-- `V[x] <- b` (R10). -/
def State.setV (s : State) (x : RegIx) (b : Byte) : State := { s with v := s.v.set x b }

/-- `I <- w` (R12). -/
def State.setI (s : State) (w : Word) : State := { s with i := w }

/-- `pc <- w` (R13). -/
def State.setPc (s : State) (w : Word) : State := { s with pc := w }

/-- The call stack replaced (R14). -/
def State.setStk (s : State) (l : List Word) : State := { s with stk := l }

/-- The memory replaced (R15). -/
def State.setMem (s : State) (m : Memory) : State := { s with mem := m }

/-- The frame buffer replaced (R16). -/
def State.setFb (s : State) (f : FrameBuffer) : State := { s with fb := f }

/-! ## Raising an error (R110, R111)

Taking an error is the machine's one exception entry. There is no return from it (R116): the only exit is reset
(`resetWith`, Machine/HostInterface.lean). -/

/-- The kind latched in `ERR` (R110). -/
def MachineError.kind : MachineError → ErrorKind
  | .unimplementedOpcode _ => .unimplementedOpcode
  | .addressOutOfRange => .addressOutOfRange
  | .stackUnderflow => .stackUnderflow
  | .stackOverflow => .stackOverflow
  | .imageTooLarge => .imageTooLarge

/-- The payload latched in `ERRINFO`: the offending word of an unimplemented opcode, else 0x0000 (R110, R111). -/
def MachineError.info : MachineError → Word
  | .unimplementedOpcode op => op
  | _ => 0

/-- The number of an error kind, the 3-bit value of `ERR` (R17, R110; UNVERIFIED, the spec's decision D9, log 5). -/
def ErrorKind.code : ErrorKind → BitVec 3
  | .noError => 0
  | .unimplementedOpcode => 1
  | .addressOutOfRange => 2
  | .stackUnderflow => 3
  | .stackOverflow => 4
  | .imageTooLarge => 5

/-- Taking an error (R111): `HALT`, `ERR` and `ERRINFO` are written, as one action, and nothing else changes: nothing
is pushed, no register is saved, `pc` is not redirected. -/
def takeError (e : MachineError) (s : State) : State :=
  { s with halt := true, err := e.kind, errInfo := e.info }

/-! ## Sequencing (R7, R112) -/

/-- What a part of a step comes to: a value and the state to go on from, or the halted state an error left. -/
inductive Res (α : Type) where
  | ok (a : α) (s : State)
  | raised (s : State)
deriving DecidableEq, Repr

/-- `raise E(info)`: the error is taken in the state as it is and the step ends (R111, R112: no rollback). -/
def raise {α : Type} (e : MachineError) (s : State) : Res α := .raised (takeError e s)

/-- One statement after another: a raise in the first ends the step (R7, R112). -/
def Res.andThen {α β : Type} (r : Res α) (f : α → State → Res β) : Res β :=
  match r with
  | .ok a s => f a s
  | .raised s => .raised s

/-- `for x = ...`: the body for each element in order, with a value carried along; a raise ends the loop and the
step (R7, R112). -/
def forEach {α β : Type} (body : β → α → State → Res β) : List α → β → State → Res β
  | [], b, s => .ok b s
  | x :: xs, b, s => (body b x s).andThen fun b' s' => forEach body xs b' s'

/-- The end of a meaning: the state after the instruction, or the halted state after an error. Both are next states
(log 1). -/
def finish (r : Res Unit) : Host.Outcome State Fault Refusal :=
  match r with
  | .ok _ s => .next s
  | .raised s => .next s

/-! ## Program counter (R13) -/

/-- `pc <- (pc + 2) mod 65536`, the last action of every instruction but `RET` and `CALL` (R13; UNVERIFIED, the
spec's decision D10, log 13). -/
def advancePc (s : State) : Res Unit := .ok () (s.setPc (nextPc s))

/-- `pc <- target` (R13). -/
def jumpTo (target : Word) (s : State) : Res Unit := .ok () (s.setPc target)

/-! ## Call stack (R14, R70, R71) -/

/-- Whether the call stack holds `STACK_DEPTH` entries. `len(STK)` never exceeds 16 (`Inv`), so this is the spec's
`len(STK) = 16` (R71). DEDUCED, log 6. -/
def stackFull (s : State) : Bool := decide (Config.stackDepth ≤ s.stk.length)

/-- Push: the check comes first, so an overflow changes nothing but the status latch (R71). -/
def push (w : Word) (s : State) : Res Unit :=
  if stackFull s then raise .stackOverflow s else .ok () (s.setStk (s.stk ++ [w]))

/-- Pop: the last element, removed; `StackUnderflow` when there is none (R70). -/
def pop (s : State) : Res Word :=
  match s.stk.getLast? with
  | none => raise .stackUnderflow s
  | some w => .ok w (s.setStk s.stk.dropLast)

/-! ## Memory (R31, R32) -/

/-- The byte of memory at an address, as claims read it. Outside memory it means nothing: log 25. -/
def byteAt (s : State) (a : Nat) : Byte := s.mem.cellAt a

/-- `MemRead(addr, 1)` (R31). -/
def memRead (a : Nat) (s : State) : Res Byte :=
  if a < Config.memSize then .ok (byteAt s a) s else raise .addressOutOfRange s

/-- `MemWrite(addr, 1, v)` (R32). -/
def memWrite (a : Nat) (w : Byte) (s : State) : Res Unit :=
  if a < Config.memSize then .ok () (s.setMem (s.mem.setCell a w)) else raise .addressOutOfRange s

/-! ## Frame buffer (R16, R43) -/

/-- `FB[col][row]`. Outside the grid it means nothing: log 25. -/
def FrameBuffer.pixel (f : FrameBuffer) (col row : Nat) : Bool :=
  if h : col < Config.fbCols ∧ row < Config.fbRows then (f[col]'h.1)[row]'h.2 else false

/-- `FB[col][row] <- bit`; outside the grid nothing. -/
def FrameBuffer.setPixel (f : FrameBuffer) (col row : Nat) (bit : Bool) : FrameBuffer :=
  if h : col < Config.fbCols ∧ row < Config.fbRows then f.set col ((f[col]'h.1).set row bit h.2) h.1 else f

/-- The pixel of column `col` and row `row`, as claims read it. -/
def pixelAt (s : State) (col row : Nat) : Bool := FrameBuffer.pixel s.fb col row

/-- `FbXor(col, row, bit)`: the bounds check first, also for a 0 bit; then the exclusive-or; the old pixel is the
answer (R43; UNVERIFIED, the spec's decision D5, log 10). -/
def fbXor (col row : Nat) (bit : Bool) (s : State) : Res Bool :=
  if col < Config.fbCols ∧ row < Config.fbRows then
    .ok (pixelAt s col row) (s.setFb (FrameBuffer.setPixel s.fb col row (pixelAt s col row ^^ bit)))
  else raise .addressOutOfRange s

end Sys2Proof.Machine
end

