-- ==== Sys2Proof/Machine/ControlTransfer.lean ====
section
/-! DEFINITION. `RET` and `CALL nnn` (spec 40_control_transfer.md). -/

namespace Sys2Proof.Machine

/-- `RET` (R70): the popped value is the new `pc`, with no extra advance. -/
def execRet (s : State) : Host.Outcome State Fault Refusal :=
  finish <| (pop s).andThen fun t s => jumpTo t s

/-- `CALL nnn` (R71): `pc + 2` is pushed (UNVERIFIED, the spec's decision D2, log 7), then `pc` is `nnn`. -/
def execCall (nnn : Addr12) (s : State) : Host.Outcome State Fault Refusal :=
  finish <| (push (nextPc s) s).andThen fun _ s => jumpTo (zext16 nnn) s

end Sys2Proof.Machine
end

