-- ==== Sys2Proof/Machine/Flags.lean ====
section
/-! DEFINITION. The one flag computation of the machine: the collision flag of `DRW` (spec 10_state.md R11,
42_draw.md R90). No other instruction produces a flag (R11, R81). -/

namespace Sys2Proof.Machine

/-- A set pixel met by a set sprite bit is turned off: a collision (R90). -/
def collides (old bit : Bool) : Bool := old && bit

/-- The value written to `VF`: 0x01 on a collision, 0x00 otherwise (R90). That 0 is written at all is the spec's own
decision D4: UNVERIFIED, log 9. -/
def collisionByte (hit : Bool) : Byte := if hit then 1 else 0

end Sys2Proof.Machine
end

