-- ==== Sys2Proof/Machine/Draw.lean ====
section
/-! DEFINITION. `DRW Vx,Vy,n` and the pixel engine (spec 42_draw.md R90). -/

namespace Sys2Proof.Machine

/-- `S[row][k]`: sprite bit `k` of row `row` of the sprite at `I` (R91). -/
def spriteAt (s : State) (row k : Nat) : Bool := spriteBit (byteAt s (effAddr s row)) k

/-- The body of R90's inner loop: sprite bit `k` into column `vx + k` of pixel row `row`, the collision carried
along. -/
def drawPixel (vx row : Nat) (b : Byte) (hit : Bool) (k : Nat) (s : State) : Res Bool :=
  (fbXor (vx + k) row (spriteBit b k) s).andThen fun old s => .ok (hit || collides old (spriteBit b k)) s

/-- The body of R90's outer loop: sprite row `row` is read from `I + row`, then its eight pixels, left to right. -/
def drawRow (vx vy : Nat) (hit : Bool) (row : Nat) (s : State) : Res Bool :=
  (memRead (effAddr s row) s).andThen fun b s => forEach (drawPixel vx (vy + row) b) (List.range 8) hit s

/-- The `n` rows, top to bottom; the answer is the collision. -/
def drawSprite (vx vy n : Nat) (s : State) : Res Bool :=
  forEach (drawRow vx vy) (List.range n) false s

/-- `DRW Vx,Vy,n` (R90): both coordinates are sampled before any write, `VF` is written after all pixels, then `pc`
advances (UNVERIFIED, the spec's decisions D3, D4, D5, D25: logs 8, 9, 10). -/
def execDrwVxVyN (x y : RegIx) (n : Fin 16) (s : State) : Host.Outcome State Fault Refusal :=
  finish <| (drawSprite (readV s x).toNat (readV s y).toNat n s).andThen fun hit s =>
    advancePc (s.setV 15 (collisionByte hit))

end Sys2Proof.Machine
end

