-- ==== Sys2Proof/Machine/IndexMemory.lean ====
section
/-! DEFINITION. `LD F,Vx`, `LD B,Vx` and `LD Vx,[I]` (spec 43_index_memory.md). -/

namespace Sys2Proof.Machine

/-- `LD F,Vx` (R100): `I <- 5 * V[x]`, no memory access. -/
def execLdFVx (x : RegIx) (s : State) : Host.Outcome State Fault Refusal :=
  finish <| advancePc (s.setI (glyphAddress (readV s x)))

/-- `LD B,Vx` (R101): hundreds, tens and ones of `V[x]` at `I`, `I + 1`, `I + 2`, in that order; `I` unchanged
(UNVERIFIED, the spec's decisions D7, D11, D21: logs 12, 13, 18). -/
def execLdBVx (x : RegIx) (s : State) : Host.Outcome State Fault Refusal :=
  finish <| (memWrite (effAddr s 0) (hundreds (readV s x)) s).andThen fun _ s =>
    (memWrite (effAddr s 1) (tens (readV s x)) s).andThen fun _ s =>
      (memWrite (effAddr s 2) (ones (readV s x)) s).andThen fun _ s => advancePc s

/-- The registers `LD Vx,[I]` loads: `V[0]` to `V[x]`, ascending. -/
def upTo (x : RegIx) : List RegIx := (List.finRange 16).take (x.val + 1)

/-- The body of R102's loop: `V[k] <- MemRead(I + k, 1)`. -/
def loadRegister (_ : Unit) (k : RegIx) (s : State) : Res Unit :=
  (memRead (effAddr s k) s).andThen fun b s => .ok () (s.setV k b)

/-- `LD Vx,[I]` (R102): `I` unchanged (UNVERIFIED, the spec's decision D21, log 18). -/
def execLdVxI (x : RegIx) (s : State) : Host.Outcome State Fault Refusal :=
  finish <| (forEach loadRegister (upTo x) () s).andThen fun _ s => advancePc s

end Sys2Proof.Machine
end

