-- ==== Sys2Proof/Machine/RegisterImmediate.lean ====
section
/-! DEFINITION. `LD Vx,kk`, `ADD Vx,kk` and `LD I,nnn` (spec 41_register_immediate.md). -/

namespace Sys2Proof.Machine

/-- `LD Vx,kk` (R80). -/
def execLdVxKk (x : RegIx) (kk : Byte) (s : State) : Host.Outcome State Fault Refusal :=
  finish <| advancePc (s.setV x kk)

/-- `ADD Vx,kk` (R81): no flag. -/
def execAddVxKk (x : RegIx) (kk : Byte) (s : State) : Host.Outcome State Fault Refusal :=
  finish <| advancePc (s.setV x (addByte (readV s x) kk))

/-- `LD I,nnn` (R82): the address is not checked here. -/
def execLdINnn (nnn : Addr12) (s : State) : Host.Outcome State Fault Refusal :=
  finish <| advancePc (s.setI (zext16 nnn))

end Sys2Proof.Machine
end

