-- ==== Sys2Proof/Syntax.lean ====
section
/-! DEFINITION. The instruction set: one constructor per row of spec/opcode_table.json (30_encoding.md R54). -/

namespace Sys2Proof

/-- The nine instructions (R54). Register fields are indexes 0 to 15, `kk` an 8-bit and `nnn` a 12-bit immediate,
`n` a count of sprite rows 0 to 15 (R51, R58): no operand can be out of range. -/
inductive Instr where
  /-- `RET`, word 0x00EE (R70). -/
  | ret
  /-- `CALL nnn`, word 0x2nnn (R71). -/
  | call (nnn : Addr12)
  /-- `LD Vx,kk`, word 0x6xkk (R80). -/
  | ldVxKk (x : RegIx) (kk : Byte)
  /-- `ADD Vx,kk`, word 0x7xkk (R81). -/
  | addVxKk (x : RegIx) (kk : Byte)
  /-- `LD I,nnn`, word 0xAnnn (R82). -/
  | ldINnn (nnn : Addr12)
  /-- `DRW Vx,Vy,n`, word 0xDxyn (R90). -/
  | drwVxVyN (x y : RegIx) (n : Fin 16)
  /-- `LD F,Vx`, word 0xFx29 (R100). -/
  | ldFVx (x : RegIx)
  /-- `LD B,Vx`, word 0xFx33 (R101). -/
  | ldBVx (x : RegIx)
  /-- `LD Vx,[I]`, word 0xFx65 (R102). -/
  | ldVxI (x : RegIx)
deriving DecidableEq, Repr

end Sys2Proof
end

