-- ==== Sys2Proof/Machine/Dispatch.lean ====
section
/-! DEFINITION. The meaning of each instruction: one arm per constructor of `Instr`, each one direct call. -/

namespace Sys2Proof.Machine

/-- Executes one instruction (spec 30_encoding.md R53, R54). `HALT` is looked at by `step`, not here (log 2). -/
def exec (i : Instr) (s : State) : Host.Outcome State Fault Refusal :=
  match i with
  | .ret => Sys2Proof.Machine.execRet s
  | .call nnn => Sys2Proof.Machine.execCall nnn s
  | .ldVxKk x kk => Sys2Proof.Machine.execLdVxKk x kk s
  | .addVxKk x kk => Sys2Proof.Machine.execAddVxKk x kk s
  | .ldINnn nnn => Sys2Proof.Machine.execLdINnn nnn s
  | .drwVxVyN x y n => Sys2Proof.Machine.execDrwVxVyN x y n s
  | .ldFVx x => Sys2Proof.Machine.execLdFVx x s
  | .ldBVx x => Sys2Proof.Machine.execLdBVx x s
  | .ldVxI x => Sys2Proof.Machine.execLdVxI x s

end Sys2Proof.Machine
end

