-- ==== Sys2Proof/WellFormed.lean ====
section
/-! DEFINITION. Well-formedness of an instruction as it is written: the assembler notation of spec 30_encoding.md
R59, as abstract syntax with unbounded numerals, the check that every operand has the shape its mnemonic asks for
and fits its field, and the instruction a well-formed line stands for. The notation's characters are read and written
in Machine/Assembler.lean (log 24). -/

namespace Sys2Proof

/-- The five mnemonic words of the source's table (R54, R59). -/
inductive AsmMnemonic where
  | RET | CALL | LD | ADD | DRW
deriving DecidableEq, Repr

/-- An operand as written (R59). -/
inductive AsmOperand where
  /-- `V` and a register number. -/
  | reg (number : Nat)
  /-- A numeral. -/
  | imm (value : Nat)
  /-- The index register `I`. -/
  | index
  /-- The keyword `F` (glyph pointer). -/
  | glyph
  /-- The keyword `B` (decimal digits). -/
  | bcd
  /-- The memory operand `[I]`. -/
  | memIndex
deriving DecidableEq, Repr

/-- One instruction line: a mnemonic and its operands in order (R59). -/
structure AsmLine where
  mnemonic : AsmMnemonic
  operands : List AsmOperand
deriving DecidableEq, Repr

/-- The check of R59: the operands have the mnemonic's shape, a register number is one hexadecimal digit, and an
immediate fits its field (`kk` 0 to 255, `nnn` 0 to 4095, `n` 0 to 15). -/
def AsmLine.wellFormed (a : AsmLine) : Bool :=
  match a.mnemonic, a.operands with
  | .RET, [] => true
  | .CALL, [.imm nnn] => decide (nnn < 4096)
  | .LD, [.reg x, .imm kk] => decide (x < 16) && decide (kk < 256)
  | .ADD, [.reg x, .imm kk] => decide (x < 16) && decide (kk < 256)
  | .LD, [.index, .imm nnn] => decide (nnn < 4096)
  | .DRW, [.reg x, .reg y, .imm n] => decide (x < 16) && decide (y < 16) && decide (n < 16)
  | .LD, [.glyph, .reg x] => decide (x < 16)
  | .LD, [.bcd, .reg x] => decide (x < 16)
  | .LD, [.reg x, .memIndex] => decide (x < 16)
  | _, _ => false

/-- The line that writes an instruction (R59's table). -/
def Instr.toAsm : Instr → AsmLine
  | .ret => ⟨.RET, []⟩
  | .call nnn => ⟨.CALL, [.imm nnn.toNat]⟩
  | .ldVxKk x kk => ⟨.LD, [.reg x, .imm kk.toNat]⟩
  | .addVxKk x kk => ⟨.ADD, [.reg x, .imm kk.toNat]⟩
  | .ldINnn nnn => ⟨.LD, [.index, .imm nnn.toNat]⟩
  | .drwVxVyN x y n => ⟨.DRW, [.reg x, .reg y, .imm n]⟩
  | .ldFVx x => ⟨.LD, [.glyph, .reg x]⟩
  | .ldBVx x => ⟨.LD, [.bcd, .reg x]⟩
  | .ldVxI x => ⟨.LD, [.reg x, .memIndex]⟩

/-- The instruction a line stands for; none when the line is not well-formed (R59). -/
def AsmLine.read? (a : AsmLine) : Option Instr :=
  if a.wellFormed then
    match a.mnemonic, a.operands with
    | .RET, [] => some .ret
    | .CALL, [.imm nnn] => some (.call (BitVec.ofNat 12 nnn))
    | .LD, [.reg x, .imm kk] => some (.ldVxKk (Fin.ofNat 16 x) (BitVec.ofNat 8 kk))
    | .ADD, [.reg x, .imm kk] => some (.addVxKk (Fin.ofNat 16 x) (BitVec.ofNat 8 kk))
    | .LD, [.index, .imm nnn] => some (.ldINnn (BitVec.ofNat 12 nnn))
    | .DRW, [.reg x, .reg y, .imm n] => some (.drwVxVyN (Fin.ofNat 16 x) (Fin.ofNat 16 y) (Fin.ofNat 16 n))
    | .LD, [.glyph, .reg x] => some (.ldFVx (Fin.ofNat 16 x))
    | .LD, [.bcd, .reg x] => some (.ldBVx (Fin.ofNat 16 x))
    | .LD, [.reg x, .memIndex] => some (.ldVxI (Fin.ofNat 16 x))
    | _, _ => none
  else none

/-- An instruction is well-formed when the line that writes it is. Every term of `Instr` is, its fields being
bounded by their types: `Laws.WellFormedness` proves it constructor by constructor. -/
def Instr.wellFormed (i : Instr) : Bool := i.toAsm.wellFormed

end Sys2Proof
end

