-- ==== Sys2Proof/Decode.lean ====
section
/-! DEFINITION. The decoder, the opcode map it reads, and the encoder written from the same map (spec
30_encoding.md R50 to R58, R61). Decoding depends on the word alone (R53). -/

namespace Sys2Proof

/-! ## Bytes and words (R34) -/

/-- The byte at the lower address: bits 15:8. -/
def hiByte (op : Word) : Byte := op.extractLsb' 8 8

/-- The byte at the higher address: bits 7:0. -/
def loByte (op : Word) : Byte := op.extractLsb' 0 8

/-- `{hi, lo}`: instruction fetch is big-endian (R34). -/
def joinBytes (hi lo : Byte) : Word := hi ++ lo

/-! ## Fields (R51) -/

/-- `top = op[15:12]`, the instruction family. -/
def fieldTop (op : Word) : BitVec 4 := op.extractLsb' 12 4

/-- `x = op[11:8]`. -/
def fieldX (op : Word) : RegIx := (op.extractLsb' 8 4).toFin

/-- `y = op[7:4]`. -/
def fieldY (op : Word) : RegIx := (op.extractLsb' 4 4).toFin

/-- `n = op[3:0]`. -/
def fieldN (op : Word) : Fin 16 := (op.extractLsb' 0 4).toFin

/-- `kk = op[7:0]`. -/
def fieldKK (op : Word) : Byte := op.extractLsb' 0 8

/-- `nnn = op[11:0]`. -/
def fieldNNN (op : Word) : Addr12 := op.extractLsb' 0 12

/-! ## The opcode map (R54) -/

/-- The rows of the opcode map, in its order. -/
inductive OpRow where
  | ret | call | ldVxKk | addVxKk | ldINnn | drwVxVyN | ldFVx | ldBVx | ldVxI
deriving DecidableEq, Repr

/-- The rows 1 to 9 of R54. -/
def OpRow.all : List OpRow := [.ret, .call, .ldVxKk, .addVxKk, .ldINnn, .drwVxVyN, .ldFVx, .ldBVx, .ldVxI]

/-- The column `mask` of R54. `RET` is matched on all 16 bits (R56; UNVERIFIED, the spec's decision D12, log 14). -/
def OpRow.mask : OpRow → Word
  | .ret => 0xFFFF
  | .call => 0xF000
  | .ldVxKk => 0xF000
  | .addVxKk => 0xF000
  | .ldINnn => 0xF000
  | .drwVxVyN => 0xF000
  | .ldFVx => 0xF0FF
  | .ldBVx => 0xF0FF
  | .ldVxI => 0xF0FF

/-- The column `match` of R54. -/
def OpRow.pattern : OpRow → Word
  | .ret => 0x00EE
  | .call => 0x2000
  | .ldVxKk => 0x6000
  | .addVxKk => 0x7000
  | .ldINnn => 0xA000
  | .drwVxVyN => 0xD000
  | .ldFVx => 0xF029
  | .ldBVx => 0xF033
  | .ldVxI => 0xF065

/-- A word selects a row when `(op & mask) = match` (R54). -/
def OpRow.selects (r : OpRow) (op : Word) : Bool := op &&& r.mask == r.pattern

/-- The instruction of a row with the operands its format takes from the word (R52, R54). -/
def OpRow.build (op : Word) : OpRow → Instr
  | .ret => .ret
  | .call => .call (fieldNNN op)
  | .ldVxKk => .ldVxKk (fieldX op) (fieldKK op)
  | .addVxKk => .addVxKk (fieldX op) (fieldKK op)
  | .ldINnn => .ldINnn (fieldNNN op)
  | .drwVxVyN => .drwVxVyN (fieldX op) (fieldY op) (fieldN op)
  | .ldFVx => .ldFVx (fieldX op)
  | .ldBVx => .ldBVx (fieldX op)
  | .ldVxI => .ldVxI (fieldX op)

/-! ## Decoding -/

/-- The instruction of a word; none for a word that selects no row, which is an unimplemented opcode (R54, R55). -/
def decodeWord (op : Word) : Option Instr :=
  (OpRow.all.find? fun r => r.selects op).map (OpRow.build op)

/-- Why bytes do not decode. -/
inductive DecodeError where
  /-- The word selects no row of R54 (R55). -/
  | unimplementedOpcode (op : Word)
  /-- Fewer than the two bytes every instruction has (R50). -/
  | truncated
deriving DecidableEq, Repr

/-- The decoder on any bytes: the first instruction and the bytes after it, or the reason there is none (R50, R34). -/
def decode : List Byte → Except DecodeError (Instr × List Byte)
  | hi :: lo :: rest =>
    match decodeWord (joinBytes hi lo) with
    | some i => .ok (i, rest)
    | none => .error (.unimplementedOpcode (joinBytes hi lo))
  | _ => .error .truncated

/-- The host's view of the decoder on a row of the opcode table: bit 0 of `w` is the least significant bit of the
first word, bits from `nbits` on are zero, and the word is laid out as the hardware stores it (R34). -/
def decodeTableWord (nbits w : Nat) : Option Instr :=
  let op : Word := BitVec.ofNat 16 (w % 2 ^ nbits)
  match decode [hiByte op, loByte op] with
  | .ok (i, _) => some i
  | .error _ => none

/-! ## Encoding (R61) -/

/-- The row an instruction stands in. -/
def Instr.row : Instr → OpRow
  | .ret => .ret
  | .call _ => .call
  | .ldVxKk _ _ => .ldVxKk
  | .addVxKk _ _ => .addVxKk
  | .ldINnn _ => .ldINnn
  | .drwVxVyN _ _ _ => .drwVxVyN
  | .ldFVx _ => .ldFVx
  | .ldBVx _ => .ldBVx
  | .ldVxI _ => .ldVxI

/-- A register index at its place: `x << 8` (R61). -/
def placeX (x : RegIx) : Word := BitVec.ofNat 16 x.val <<< 8

/-- A register index at its place: `y << 4` (R61). -/
def placeY (y : RegIx) : Word := BitVec.ofNat 16 y.val <<< 4

/-- An instruction's operands at their places in the word (R52, R61). -/
def Instr.operandBits : Instr → Word
  | .ret => 0
  | .call nnn => nnn.setWidth 16
  | .ldVxKk x kk => placeX x ||| kk.setWidth 16
  | .addVxKk x kk => placeX x ||| kk.setWidth 16
  | .ldINnn nnn => nnn.setWidth 16
  | .drwVxVyN x y n => placeX x ||| placeY y ||| BitVec.ofNat 16 n.val
  | .ldFVx x => placeX x
  | .ldBVx x => placeX x
  | .ldVxI x => placeX x

/-- The instruction's word: `match | operands` (R61). -/
def encodeWord (i : Instr) : Word := i.row.pattern ||| i.operandBits

/-- The instruction's two bytes as they lie in memory, the high byte at the lower address (R34, R61). -/
def encode (i : Instr) : List Byte := [hiByte (encodeWord i), loByte (encodeWord i)]

end Sys2Proof
end

