-- ==== Sys2Proof/Machine/Fetch.lean ====
section
/-! DEFINITION. Fetching and decoding (spec 30_encoding.md R53, 20_memory.md R34), and placing a word where the next
step fetches. -/

namespace Sys2Proof.Machine

/-- The word at an address: the byte there is the high one (R34). -/
def wordAt (s : State) (a : Nat) : Word := joinBytes (byteAt s a) (byteAt s (a + 1))

/-- The two byte reads at `pc` and `pc + 1`; `pc` is not advanced (R53, R13). -/
def fetch (s : State) : Res Word :=
  (memRead s.pc.toNat s).andThen fun hi s =>
    (memRead (s.pc.toNat + 1) s).andThen fun lo s => .ok (joinBytes hi lo) s

/-- The instruction of a fetched word, or `UnimplementedOpcode` (R53, R55). -/
def decodeOrRaise (op : Word) (s : State) : Res Instr :=
  match decodeWord op with
  | some i => .ok i s
  | none => raise (.unimplementedOpcode op) s

/-- Fetch, then decode (R53, R113). -/
def fetchDecode (s : State) : Res Instr := (fetch s).andThen decodeOrRaise

/-- `s` with a word stored at `pc`, high byte first. Where no word fits (`pc` at 0x0FFF or above) there is no place
the next step would fetch it from, and nothing is stored outside memory (log 21). -/
def placeWord (op : Word) (s : State) : State :=
  if s.pc.toNat + 1 < Config.memSize then
    s.setMem ((s.mem.setCell s.pc.toNat (hiByte op)).setCell (s.pc.toNat + 1) (loByte op))
  else s

end Sys2Proof.Machine
end

