-- ==== Sys2Proof/Machine/Step.lean ====
section
/-! DEFINITION. One step of the machine (spec 30_encoding.md R53). -/

namespace Sys2Proof.Machine

/-- `Step()` (R53): nothing on a halted machine (R114), else fetch, decode, execute. -/
def step (s : State) : Host.Outcome State Fault Refusal :=
  if s.halt then .next s
  else
    match fetchDecode s with
    | .ok i t => exec i t
    | .raised t => .next t

/-- The host's way to have `step` run a row of the opcode table: its word, every bit from `nbits` on zero, stored at
`pc` (log 21). It stands for the load of an image (R131). -/
def State.withFetchWord (s : State) (nbits w : Nat) : State := placeWord (BitVec.ofNat 16 (w % 2 ^ nbits)) s

end Sys2Proof.Machine
end

