-- ==== Sys2Proof/Machine/Assembler.lean ====
section
/-! DEFINITION. The assembler notation of spec 30_encoding.md R59 as text: a listing's characters to the bytes of an
image, and the line that writes an instruction. It is a notation of the spec's own (decision D18, log 24) and no part of
what a step does. -/

namespace Sys2Proof

/-- The characters of a listing. -/
abbrev Text := List Char

/-- A text cut at every separator. -/
def pieces (isSep : Char → Bool) : Text → List Text
  | [] => [[]]
  | c :: rest =>
    if isSep c then [] :: pieces isSep rest
    else
      match pieces isSep rest with
      | [] => [[c]]
      | p :: ps => (c :: p) :: ps

/-- A text without the blanks at its ends. -/
def trimBlanks (t : Text) : Text := ((t.dropWhile (· == ' ')).reverse.dropWhile (· == ' ')).reverse

/-- The value of a digit, `0` to `9` or `A` to `F` (R59). -/
def digit? (c : Char) : Option Nat :=
  if 48 ≤ c.toNat ∧ c.toNat ≤ 57 then some (c.toNat - 48)
  else if 65 ≤ c.toNat ∧ c.toNat ≤ 70 then some (c.toNat - 55)
  else none

/-- The digits of a numeral after the value read so far. -/
def digits? (base value : Nat) : Text → Option Nat
  | [] => some value
  | c :: rest =>
    match digit? c with
    | some d => if d < base then digits? base (value * base + d) rest else none
    | none => none

/-- A decimal numeral, or a hexadecimal one after `0x` (R59). -/
def numeral? : Text → Option Nat
  | [] => none
  | ['0', 'x'] => none
  | '0' :: 'x' :: rest => digits? 16 0 rest
  | t => digits? 10 0 t

/-- One operand as written (R59). -/
def operand? : Text → Option AsmOperand
  | ['I'] => some .index
  | ['F'] => some .glyph
  | ['B'] => some .bcd
  | ['[', 'I', ']'] => some .memIndex
  | ['V', c] => (digit? c).map .reg
  | t => (numeral? t).map .imm

/-- A mnemonic, in capitals (R59). -/
def mnemonic? : Text → Option AsmMnemonic
  | ['R', 'E', 'T'] => some .RET
  | ['C', 'A', 'L', 'L'] => some .CALL
  | ['L', 'D'] => some .LD
  | ['A', 'D', 'D'] => some .ADD
  | ['D', 'R', 'W'] => some .DRW
  | _ => none

/-- Comma-separated parts, each read; none when one of them does not read. -/
def readAll {α : Type} (read : Text → Option α) (t : Text) : Option (List α) := (pieces (· == ',') t).mapM read

/-- An instruction line: a mnemonic, one space, the operands (R59). -/
def asmLine? (t : Text) : Option AsmLine :=
  match pieces (· == ' ') t with
  | [m] => (mnemonic? m).map fun m => ⟨m, []⟩
  | [m, ops] => (mnemonic? m).bind fun m => (readAll operand? ops).map fun ops => ⟨m, ops⟩
  | _ => none

/-- A numeral that fits a byte. -/
def byte? (t : Text) : Option Byte := (numeral? t).bind fun v => if v < 256 then some (BitVec.ofNat 8 v) else none

/-- The bytes of one item of a listing: raw bytes after `DB`, else an instruction's two (R59, R61). -/
def item? (t : Text) : Option (List Byte) :=
  match pieces (· == ' ') t with
  | [['D', 'B'], bytes] => readAll byte? bytes
  | _ => ((asmLine? t).bind AsmLine.read?).map encode

/-- The image a listing stands for: one item a line or between `;`, blanks around it allowed, as in the source's
"(LD V0,5; ADD V0,3; LD I,0x210)" (R59; DEDUCED, log 24). -/
def assemble? (t : Text) : Option (List Byte) :=
  (((pieces (fun c => c == '\n' || c == ';') t).map trimBlanks |>.filter (!·.isEmpty)).mapM item?).map List.flatten

/-! ## Writing -/

/-- The hexadecimal digit of a value below 16. -/
def hexDigit (d : Nat) : Char := Char.ofNat (if d < 10 then d + 48 else d + 55)

/-- A value below 4096 as `0x` and three digits. -/
def hexNumeral (v : Nat) : Text := ['0', 'x', hexDigit (v / 256 % 16), hexDigit (v / 16 % 16), hexDigit (v % 16)]

/-- An operand as R59 writes it. -/
def AsmOperand.text : AsmOperand → Text
  | .reg number => ['V', hexDigit number]
  | .imm value => hexNumeral value
  | .index => ['I']
  | .glyph => ['F']
  | .bcd => ['B']
  | .memIndex => ['[', 'I', ']']

/-- A mnemonic's letters. -/
def AsmMnemonic.text : AsmMnemonic → Text
  | .RET => ['R', 'E', 'T']
  | .CALL => ['C', 'A', 'L', 'L']
  | .LD => ['L', 'D']
  | .ADD => ['A', 'D', 'D']
  | .DRW => ['D', 'R', 'W']

/-- A line: the mnemonic and, where there are operands, one space and the operands with commas between them (R59). -/
def AsmLine.text (a : AsmLine) : Text :=
  match a.operands with
  | [] => a.mnemonic.text
  | first :: more => a.mnemonic.text ++ ' ' :: first.text ++ (more.map fun o => ',' :: o.text).flatten

/-- The line that writes an instruction. -/
def Instr.text (i : Instr) : Text := i.toAsm.text

end Sys2Proof
end

