-- ==== Sys2Proof/Machine/HostInterface.lean ====
section
/-! DEFINITION. What the host does to the machine and sees of it (spec 00_scope.md R6): the reset sequence with an
image (70_reset_and_hazards.md R130, R131) and the read-only views `FB_OUT` and `STATUS` (20_memory.md R46). -/

namespace Sys2Proof.Machine

/-- Byte `i` of the image goes to `base + i` (R45, R131). -/
def loadImage (base : Nat) : List Byte → Memory → Memory
  | [], m => m
  | b :: rest, m => loadImage (base + 1) rest (m.setCell base b)

/-- The reset sequence with an image (R130, R131): every item at its reset value and the image at 0x200; an image longer
than 3584 bytes leaves reset halted with `ImageTooLarge` and no byte copied (UNVERIFIED, the spec's decision D14,
log 15). -/
def resetWith (image : List Byte) : State :=
  if Config.imageMax < image.length then takeError .imageTooLarge State.reset
  else State.reset.setMem (loadImage Config.loadBase image State.reset.mem)

/-- `RESET` asserted on a running or a halted machine: all previous state is discarded (R130, R116; UNVERIFIED, the
spec's decision D20, log 22). -/
def assertReset (image : List Byte) (_ : State) : State := resetWith image

/-- `FB_OUT`: the frame buffer between two steps (R6, R46). -/
def fbOut (s : State) : FrameBuffer := s.fb

/-- What `STATUS` shows (R6, R17): the widths are the spec's. -/
structure Status where
  halt : BitVec 1
  err : BitVec 3
  errInfo : Word
deriving DecidableEq, Repr

/-- `STATUS`: `HALT`, `ERR`, `ERRINFO` (R6, R17). -/
def status (s : State) : Status := ⟨BitVec.ofBool s.halt, s.err.code, s.errInfo⟩

end Sys2Proof.Machine
end

