-- ==== Sys2Proof/Safety.lean ====
section
/-! DEFINITION. What claims about the machine are stated in: runs and their end (spec 70_reset_and_hazards.md R138), which
instruction a state is about to execute, and the invariant of every state a run reaches. -/

namespace Sys2Proof.Machine

/-- The state a step answers. Every step answers one (`Laws.step_next`). -/
def stepState (s : State) : State :=
  match step s with
  | .next t => t
  | .fault _ => s
  | .refused _ => s

/-- `n` steps. -/
def runFor : Nat → State → State
  | 0, s => s
  | n + 1, s => runFor n (stepState s)

/-- The machine is running and its next step fetches and executes `i` (R53). -/
def Executes (s : State) (i : Instr) : Prop :=
  s.halt = false ∧ s.pc.toNat + 1 < Config.memSize ∧ decodeWord (wordAt s s.pc.toNat) = some i

/-- A state some run reaches: a reset with an image, then steps (R138). -/
def Reachable (s : State) : Prop := ∃ image n, s = runFor n (resetWith image)

/-- The end of a run: the first state with `HALT = 1` (R138). -/
def EndsAt (image : List Byte) (n : Nat) : Prop :=
  (runFor n (resetWith image)).halt = true ∧ ∀ m < n, (runFor m (resetWith image)).halt = false

/-- `ERR` is not `None` exactly when `HALT` is 1, and `ERRINFO` is 0 but for an unimplemented opcode, where it is a
word the decoder rejects (R17, R110). -/
def LatchOk (s : State) : Prop :=
  (s.halt = true ↔ s.err ≠ .noError) ∧
    (s.err = .unimplementedOpcode → decodeWord s.errInfo = none) ∧
    (s.err ≠ .unimplementedOpcode → s.errInfo = 0)

/-- The invariant of every reachable state: memory in canonical form, `pc` at most 0x1000 (R13), `I` at most 0x0FFF
(R12), at most 16 saved program counters (R14), each at most 0x1000 (R70), the status latch consistent (R17). -/
def Inv (s : State) : Prop :=
  s.mem.wf ∧ s.pc.toNat ≤ 0x1000 ∧ s.i.toNat ≤ 0x0FFF ∧ s.stk.length ≤ Config.stackDepth ∧
    (∀ w ∈ s.stk, w.toNat ≤ 0x1000) ∧ LatchOk s

/-- The status latch is unchanged: no error was raised. -/
def SameLatch (s t : State) : Prop := t.halt = s.halt ∧ t.err = s.err ∧ t.errInfo = s.errInfo

/-- Every byte of memory reads as before. -/
def SameMem (s t : State) : Prop := ∀ a, byteAt t a = byteAt s a

/-- Every pixel is as before. -/
def SameFb (s t : State) : Prop := ∀ col row, pixelAt t col row = pixelAt s col row

/-- Every general register is as before. -/
def SameV (s t : State) : Prop := ∀ j, readV t j = readV s j

/-- The status latch after raising `e` (R111). -/
def Latched (e : MachineError) (t : State) : Prop := t.halt = true ∧ t.err = e.kind ∧ t.errInfo = e.info

/-- The bounds a `DRW` of `n` rows must respect to raise no error (R134). -/
def DrawFits (s : State) (x y : RegIx) (n : Fin 16) : Prop :=
  n.val = 0 ∨ (s.i.toNat + n.val ≤ 4096 ∧ (readV s x).toNat ≤ 56 ∧ (readV s y).toNat + n.val ≤ 32)

end Sys2Proof.Machine
end

