-- ==== Sys2Proof/Certificates/Slice0/Obligations.lean ====
section
/-! DEFINITION. The statements for the provers. Each docstring names the rule of spec/ it formalises; where a clause
rests on a decision the spec marks as its own (92_eei_decisions.md) or on a choice of the model, it says so. -/

open Sys2Proof Sys2Proof.Machine

/-! ## Encoding -/

/-- R51: every field is the masked and shifted part of the word, and `nnn = {x, kk}`, `kk = {y, n}`. -/
def Obligations.FieldsAreMaskedAndShifted : Prop :=
  ∀ op : Word,
    (fieldTop op).toNat = ((op &&& 0xF000) >>> 12).toNat ∧
    (fieldX op).val = ((op &&& 0x0F00) >>> 8).toNat ∧
    (fieldY op).val = ((op &&& 0x00F0) >>> 4).toNat ∧
    (fieldN op).val = (op &&& 0x000F).toNat ∧
    (fieldKK op).toNat = (op &&& 0x00FF).toNat ∧
    (fieldNNN op).toNat = (op &&& 0x0FFF).toNat ∧
    (fieldNNN op).toNat = (fieldX op).val * 256 + (fieldKK op).toNat ∧
    (fieldKK op).toNat = (fieldY op).val * 16 + (fieldN op).val

/-- R54: the nine rows of the opcode map, each with its mask, its match and the operands its format takes from the
word; a word decodes to an instruction exactly when it selects that instruction's row. By leading nibble, exactly the
words of R54's second table are defined. (That 0x01EE to 0x0FEE are not `RET` is the pattern column of the source's
table; the spec's decision D12 takes it over the source's prose, log 14.) -/
def Obligations.DecodeSelectsByMaskAndMatch : Prop :=
  (∀ (op : Word) (i : Instr), decodeWord op = some i ↔
    (op &&& 0xFFFF = 0x00EE ∧ i = .ret) ∨
    (op &&& 0xF000 = 0x2000 ∧ i = .call (BitVec.ofNat 12 op.toNat)) ∨
    (op &&& 0xF000 = 0x6000 ∧ i = .ldVxKk (Fin.ofNat 16 (op.toNat / 256)) (BitVec.ofNat 8 op.toNat)) ∨
    (op &&& 0xF000 = 0x7000 ∧ i = .addVxKk (Fin.ofNat 16 (op.toNat / 256)) (BitVec.ofNat 8 op.toNat)) ∨
    (op &&& 0xF000 = 0xA000 ∧ i = .ldINnn (BitVec.ofNat 12 op.toNat)) ∨
    (op &&& 0xF000 = 0xD000 ∧
      i = .drwVxVyN (Fin.ofNat 16 (op.toNat / 256)) (Fin.ofNat 16 (op.toNat / 16)) (Fin.ofNat 16 op.toNat)) ∨
    (op &&& 0xF0FF = 0xF029 ∧ i = .ldFVx (Fin.ofNat 16 (op.toNat / 256))) ∨
    (op &&& 0xF0FF = 0xF033 ∧ i = .ldBVx (Fin.ofNat 16 (op.toNat / 256))) ∨
    (op &&& 0xF0FF = 0xF065 ∧ i = .ldVxI (Fin.ofNat 16 (op.toNat / 256)))) ∧
  ∀ op : Word, decodeWord op ≠ none ↔
    op = 0x00EE ∨ fieldTop op = 0x2 ∨ fieldTop op = 0x6 ∨ fieldTop op = 0x7 ∨ fieldTop op = 0xA ∨ fieldTop op = 0xD ∨
      (fieldTop op = 0xF ∧ (fieldKK op = 0x29 ∨ fieldKK op = 0x33 ∨ fieldKK op = 0x65))

/-- R53: at most one row of the opcode map matches any word, so decoding needs no priority. -/
def Obligations.NoWordSelectsTwoRows : Prop :=
  ∀ (op : Word) (r r' : OpRow), r.selects op = true → r'.selects op = true → r = r'

/-- R61: decoding inverts encoding, for every instruction and every operand, as a word and as bytes in memory followed
by anything. -/
def Obligations.DecodeOfEncodeIsIdentity : Prop :=
  ∀ (i : Instr) (rest : List Byte), i.wellFormed = true ∧ decodeWord (encodeWord i) = some i ∧
    decode (encode i ++ rest) = .ok (i, rest)

/-- R61: encoding inverts decoding on every defined word. -/
def Obligations.EncodeOfDecodedIsIdentity : Prop :=
  ∀ (op : Word) (i : Instr), decodeWord op = some i → encodeWord i = op

/-- R61: the word of each instruction as a number, and its bytes, the high one first. -/
def Obligations.EncodedWordsAreMatchPlusOperands : Prop :=
  (encodeWord .ret).toNat = 0x00EE ∧
  (∀ nnn, (encodeWord (.call nnn)).toNat = 0x2000 + nnn.toNat) ∧
  (∀ x kk, (encodeWord (.ldVxKk x kk)).toNat = 0x6000 + x.val * 256 + kk.toNat) ∧
  (∀ x kk, (encodeWord (.addVxKk x kk)).toNat = 0x7000 + x.val * 256 + kk.toNat) ∧
  (∀ nnn, (encodeWord (.ldINnn nnn)).toNat = 0xA000 + nnn.toNat) ∧
  (∀ x y n, (encodeWord (.drwVxVyN x y n)).toNat = 0xD000 + x.val * 256 + y.val * 16 + n.val) ∧
  (∀ x, (encodeWord (.ldFVx x)).toNat = 0xF029 + x.val * 256) ∧
  (∀ x, (encodeWord (.ldBVx x)).toNat = 0xF033 + x.val * 256) ∧
  (∀ x, (encodeWord (.ldVxI x)).toNat = 0xF065 + x.val * 256) ∧
  ∀ i, (encode i).map BitVec.toNat = [(encodeWord i).toNat / 256, (encodeWord i).toNat % 256]

/-- R54, R59: words written out from the opcode map's bit patterns decode to the instructions they stand for. -/
def Obligations.WrittenOutWordsDecode : Prop :=
  decodeWord 0b0000000011101110 = some .ret ∧
  decodeWord 0b0010001000001010 = some (.call 0x20A) ∧
  decodeWord 0b0110000000000101 = some (.ldVxKk 0 5) ∧
  decodeWord 0b0111000000000011 = some (.addVxKk 0 3) ∧
  decodeWord 0b1010001000010000 = some (.ldINnn 0x210) ∧
  decodeWord 0b1101000000010010 = some (.drwVxVyN 0 1 2) ∧
  decodeWord 0b1111001100101001 = some (.ldFVx 3) ∧
  decodeWord 0b1111101000110011 = some (.ldBVx 10) ∧
  decodeWord 0b1111001001100101 = some (.ldVxI 2)

/-- R59: the line `Instr.text` writes for an instruction assembles to the instruction's two bytes, for every instruction
and every operand. The notation is the spec's own decision D18; that the line spells every immediate as `0x` and three
digits, where R59's table has `LD V0,5` too, is the model's own choice (log 24, DESIGN CHOICE). -/
def Obligations.WrittenLineAssembles : Prop :=
  ∀ i : Instr, assemble? i.text = some (encode i)

/-! ## The step -/

/-- Every step answers a next state: an error is an entry to the halted state, a halted machine answers itself. That
the model words it so is its own reading (logs 1 and 2). -/
def Obligations.EveryStepAnswersANextState : Prop :=
  ∀ s : State, ∃ t, step s = .next t

/-- R53: on a running machine whose bytes at `pc` and `pc + 1` decode to a well-formed instruction, a step is that
instruction's execution in the same state: the fetch changes nothing and `pc` is not advanced around it. -/
def Obligations.StepRunsTheDecodedInstruction : Prop :=
  ∀ (s : State) (i : Instr), s.halt = false → s.pc.toNat + 1 < 4096 → i.wellFormed = true →
    decodeWord (joinBytes (byteAt s s.pc.toNat) (byteAt s (s.pc.toNat + 1))) = some i → step s = exec i s

/-- R53, R110, R112: a running machine with `pc` at 0x0FFF or above cannot fetch: `AddressOutOfRange` is latched and
nothing else changes, whatever the bytes. How the latch is coded is the spec's decision D9. -/
def Obligations.FetchOutsideMemoryRaises : Prop :=
  ∀ s : State, s.halt = false → 0x0FFF ≤ s.pc.toNat →
    ∃ t, step s = .next t ∧ Latched .addressOutOfRange t ∧ t.pc = s.pc ∧ SameV s t ∧ t.i = s.i ∧ t.stk = s.stk ∧
      SameMem s t ∧ SameFb s t

/-- R55: a fetched word that selects no row raises `UnimplementedOpcode` with the full word, `pc` still at its address
and no other state changed; 0x0000 and 0x00E0 are such words. -/
def Obligations.UndefinedWordHalts : Prop :=
  decodeWord 0x0000 = none ∧ decodeWord 0x00E0 = none ∧
  ∀ s : State, s.halt = false → s.pc.toNat + 1 < 4096 → decodeWord (wordAt s s.pc.toNat) = none →
    ∃ t, step s = .next t ∧ Latched (.unimplementedOpcode (wordAt s s.pc.toNat)) t ∧ t.pc = s.pc ∧ SameV s t ∧
      t.i = s.i ∧ t.stk = s.stk ∧ SameMem s t ∧ SameFb s t

/-- R57: in family 0xF the low byte selects one of three instructions for every `x`, and every other low byte raises
`UnimplementedOpcode` with the word. -/
def Obligations.FamilyFSelectsByLowByte : Prop :=
  (∀ op : Word, fieldTop op = 0xF → fieldKK op = 0x29 → decodeWord op = some (.ldFVx (fieldX op))) ∧
  (∀ op : Word, fieldTop op = 0xF → fieldKK op = 0x33 → decodeWord op = some (.ldBVx (fieldX op))) ∧
  (∀ op : Word, fieldTop op = 0xF → fieldKK op = 0x65 → decodeWord op = some (.ldVxI (fieldX op))) ∧
  ∀ (s : State) (op : Word), s.halt = false → s.pc.toNat + 1 < 4096 → wordAt s s.pc.toNat = op → fieldTop op = 0xF →
    fieldKK op ≠ 0x29 → fieldKK op ≠ 0x33 → fieldKK op ≠ 0x65 →
    ∃ t, step s = .next t ∧ Latched (.unimplementedOpcode op) t

/-- R114: while `HALT = 1` a step changes nothing, and so does any number of steps. -/
def Obligations.HaltedMachineTakesNoStep : Prop :=
  ∀ s : State, s.halt = true → step s = .next s ∧ ∀ n, runFor n s = s

/-- R34: fetch is big-endian: the byte at `pc` is bits 15:8 of the word, the byte at `pc + 1` bits 7:0. -/
def Obligations.FetchIsBigEndian : Prop :=
  ∀ s : State, s.pc.toNat + 1 < 4096 →
    ∃ op, fetch s = .ok op s ∧ op.extractLsb' 8 8 = byteAt s s.pc.toNat ∧
      op.extractLsb' 0 8 = byteAt s (s.pc.toNat + 1) ∧
      op.toNat = 256 * (byteAt s s.pc.toNat).toNat + (byteAt s (s.pc.toNat + 1)).toNat

/-! ## Memory and frame buffer -/

/-- R31: a read answers the byte and changes no state; at 4096 and above it raises `AddressOutOfRange`. -/
def Obligations.MemReadIsBoundsChecked : Prop :=
  (∀ (a : Nat) (s : State), a < 4096 → memRead a s = .ok (byteAt s a) s) ∧
  ∀ (a : Nat) (s : State), 4096 ≤ a → ∃ t, memRead a s = .raised t ∧ Latched .addressOutOfRange t ∧ SameMem s t

/-- R32: a write changes the byte at its address and no other cell (nor any other state); at 4096 and above it raises
`AddressOutOfRange` and memory is unchanged. -/
def Obligations.MemWriteChangesOneByte : Prop :=
  (∀ (a : Nat) (w : Byte) (s : State), a < 4096 →
    ∃ t, memWrite a w s = .ok () t ∧ byteAt t a = w ∧ (∀ b, b ≠ a → byteAt t b = byteAt s b) ∧ SameV s t ∧ t.i = s.i ∧
      t.pc = s.pc ∧ t.stk = s.stk ∧ SameFb s t ∧ SameLatch s t) ∧
  ∀ (a : Nat) (w : Byte) (s : State), 4096 ≤ a →
    ∃ t, memWrite a w s = .raised t ∧ Latched .addressOutOfRange t ∧ SameMem s t

/-- R43: inside the grid `FbXor` answers the old pixel and flips it by the bit, every other pixel unchanged; outside it
raises `AddressOutOfRange`, for a 0 bit too (the spec's decision D5, log 10), and the frame buffer is unchanged. -/
def Obligations.FbXorFlipsOnePixel : Prop :=
  (∀ (col row : Nat) (bit : Bool) (s : State), col < 64 → row < 32 →
    ∃ t, fbXor col row bit s = .ok (pixelAt s col row) t ∧ pixelAt t col row = (pixelAt s col row ^^ bit) ∧
      (∀ c r, ¬(c = col ∧ r = row) → pixelAt t c r = pixelAt s c r) ∧ SameV s t ∧ t.i = s.i ∧ t.pc = s.pc ∧
      t.stk = s.stk ∧ SameMem s t ∧ SameLatch s t) ∧
  ∀ (col row : Nat) (bit : Bool) (s : State), 64 ≤ col ∨ 32 ≤ row →
    ∃ t, fbXor col row bit s = .raised t ∧ Latched .addressOutOfRange t ∧ SameFb s t

/-- Equal memories are equal data: the canonical form (log 20, the model's own) is one list for each contents. -/
def Obligations.CanonicalMemoryIsUnique : Prop :=
  ∀ m m' : Memory, m.wf → m'.wf → (∀ a, m.cellAt a = m'.cellAt a) → m = m'

/-! ## Control transfer -/

/-- R70: `RET` is the word 0x00EE and no other; with a top entry it makes that entry the `pc`, with no extra advance, and removes it;
with the stack empty it raises `StackUnderflow` and changes nothing but the status latch. -/
def Obligations.RetPopsIntoPc : Prop :=
  encodeWord .ret = 0x00EE ∧ (∀ op, decodeWord op = some .ret ↔ op = 0x00EE) ∧
  (∀ (s : State) (below : List Word) (top : Word), s.stk = below ++ [top] →
    ∃ t, exec .ret s = .next t ∧ t.pc = top ∧ t.stk = below ∧ SameV s t ∧ t.i = s.i ∧ SameMem s t ∧ SameFb s t ∧
      SameLatch s t) ∧
  ∀ s : State, s.stk = [] →
    ∃ t, exec .ret s = .next t ∧ Latched .stackUnderflow t ∧ t.pc = s.pc ∧ t.stk = [] ∧ SameV s t ∧ t.i = s.i ∧
      SameMem s t ∧ SameFb s t

/-- R71: with fewer than 16 entries (the spec's decision D1, log 6) `CALL nnn` pushes `pc + 2` (the spec's decision D2,
log 7) and sets `pc` to `nnn` zero-extended; with 16 it raises `StackOverflow` and changes nothing but the status
latch. -/
def Obligations.CallPushesTheNextAddress : Prop :=
  (∀ (s : State) (nnn : Addr12), s.stk.length < 16 →
    ∃ t saved, exec (.call nnn) s = .next t ∧ t.stk = s.stk ++ [saved] ∧
      saved.toNat = (s.pc.toNat + 2) % 65536 ∧ t.pc.toNat = nnn.toNat ∧ SameV s t ∧ t.i = s.i ∧ SameMem s t ∧
      SameFb s t ∧ SameLatch s t) ∧
  ∀ (s : State) (nnn : Addr12), s.stk.length = 16 →
    ∃ t, exec (.call nnn) s = .next t ∧ Latched .stackOverflow t ∧ t.pc = s.pc ∧ t.stk = s.stk ∧ SameV s t ∧
      t.i = s.i ∧ SameMem s t ∧ SameFb s t

/-- R72: when a `CALL` at address `p` executes with `d < 16` entries, and `n` steps later a `RET` executes with `d + 1`
entries for the first time since, then after that `RET` `pc` is `p + 2` and the stack is as it was before the `CALL`.
That the depth is 16 is the spec's decision D1. -/
def Obligations.CallReturnRoundTrip : Prop :=
  ∀ (s : State) (nnn : Addr12) (n : Nat), Executes s (.call nnn) → s.stk.length < 16 → 1 ≤ n →
    Executes (runFor n s) .ret → (runFor n s).stk.length = s.stk.length + 1 →
    (∀ m, 1 ≤ m → m < n → Executes (runFor m s) .ret → (runFor m s).stk.length ≠ s.stk.length + 1) →
    (runFor (n + 1) s).pc.toNat = s.pc.toNat + 2 ∧ (runFor (n + 1) s).stk = s.stk

/-! ## Registers and immediates -/

/-- R80: `LD Vx,kk` is the word 0x6xkk; it writes `kk` into `V[x]`, advances `pc` by 2 and changes nothing else; it raises
nothing. -/
def Obligations.LoadImmediateWritesVx : Prop :=
  ∀ (x : RegIx) (kk : Byte), (encodeWord (.ldVxKk x kk)).toNat = 0x6000 + x.val * 256 + kk.toNat ∧
    ∀ s : State, ∃ t, exec (.ldVxKk x kk) s = .next t ∧ readV t x = kk ∧ (∀ j, j ≠ x → readV t j = readV s j) ∧
      t.pc.toNat = (s.pc.toNat + 2) % 65536 ∧ t.i = s.i ∧ t.stk = s.stk ∧ SameMem s t ∧ SameFb s t ∧ SameLatch s t

/-- R81: `ADD Vx,kk` is the word 0x7xkk; it adds `kk` to `V[x]` modulo 256, touches no flag (`VF` changes only as the
destination), advances `pc` by 2 and changes nothing else; it raises nothing. -/
def Obligations.AddImmediateWrapsWithoutFlag : Prop :=
  ∀ (x : RegIx) (kk : Byte), (encodeWord (.addVxKk x kk)).toNat = 0x7000 + x.val * 256 + kk.toNat ∧
    ∀ s : State, ∃ t, exec (.addVxKk x kk) s = .next t ∧
      (readV t x).toNat = ((readV s x).toNat + kk.toNat) % 256 ∧ (∀ j, j ≠ x → readV t j = readV s j) ∧
      t.pc.toNat = (s.pc.toNat + 2) % 65536 ∧ t.i = s.i ∧ t.stk = s.stk ∧ SameMem s t ∧ SameFb s t ∧ SameLatch s t

/-- R82: `LD I,nnn` is the word 0xAnnn; it writes `nnn` zero-extended into `I`, unchecked, advances `pc` by 2 and changes
nothing else; it raises nothing. -/
def Obligations.LoadIndexWritesI : Prop :=
  ∀ nnn : Addr12, (encodeWord (.ldINnn nnn)).toNat = 0xA000 + nnn.toNat ∧
    ∀ s : State, ∃ t, exec (.ldINnn nnn) s = .next t ∧ t.i.toNat = nnn.toNat ∧
      t.pc.toNat = (s.pc.toNat + 2) % 65536 ∧ SameV s t ∧ t.stk = s.stk ∧ SameMem s t ∧ SameFb s t ∧ SameLatch s t

/-! ## Index and memory -/

/-- R100: `LD F,Vx` sets `I` to 5 times the value of `V[x]` (not of the field, not masked: the spec's decision D6,
log 11), exactly, and changes nothing else but `pc`. -/
def Obligations.GlyphPointerIsFiveTimesVx : Prop :=
  ∀ (x : RegIx) (s : State), ∃ t, exec (.ldFVx x) s = .next t ∧ t.i.toNat = 5 * (readV s x).toNat ∧
    t.pc.toNat = (s.pc.toNat + 2) % 65536 ∧ SameV s t ∧ t.stk = s.stk ∧ SameMem s t ∧ SameFb s t ∧ SameLatch s t

/-- R101: with `I` at most 4093, `LD B,Vx` stores the hundreds, tens and ones digits of `V[x]` (the spec's decision D7,
log 12) at `I`, `I + 1` and `I + 2`, every other byte of memory unchanged, `I` unchanged (D21, log 18), and nothing else
changes but `pc`. -/
def Obligations.StoreDigitsWritesThreeBytes : Prop :=
  ∀ (x : RegIx) (s : State), s.i.toNat ≤ 4093 → ∃ t, exec (.ldBVx x) s = .next t ∧
    (byteAt t (effAddr s 0)).toNat = (readV s x).toNat / 100 ∧
    (byteAt t (effAddr s 1)).toNat = (readV s x).toNat / 10 % 10 ∧
    (byteAt t (effAddr s 2)).toNat = (readV s x).toNat % 10 ∧
    (∀ a, a ≠ effAddr s 0 → a ≠ effAddr s 1 → a ≠ effAddr s 2 → byteAt t a = byteAt s a) ∧
    t.pc.toNat = (s.pc.toNat + 2) % 65536 ∧ SameV s t ∧ t.i = s.i ∧ t.stk = s.stk ∧ SameFb s t ∧ SameLatch s t

/-- R101, R112: with `I` above 4093, `LD B,Vx` writes the digits whose addresses are inside memory, hundreds first, and
then raises `AddressOutOfRange` with `pc` at its own address (the spec's decisions D10, D11, log 13). -/
def Obligations.StoreDigitsCutShort : Prop :=
  ∀ (x : RegIx) (s : State), 4093 < s.i.toNat → ∃ t, exec (.ldBVx x) s = .next t ∧ Latched .addressOutOfRange t ∧
    (effAddr s 0 < 4096 → (byteAt t (effAddr s 0)).toNat = (readV s x).toNat / 100) ∧
    (effAddr s 1 < 4096 → (byteAt t (effAddr s 1)).toNat = (readV s x).toNat / 10 % 10) ∧
    (∀ a, (4096 ≤ a ∨ (a ≠ effAddr s 0 ∧ a ≠ effAddr s 1)) → byteAt t a = byteAt s a) ∧
    t.pc = s.pc ∧ SameV s t ∧ t.i = s.i ∧ t.stk = s.stk ∧ SameFb s t

/-- R102: with `I + x` at most 4095, `LD Vx,[I]` loads `V[0]` to `V[x]` from `I` upward, registers above `V[x]` untouched,
`I` unchanged (the spec's decision D21, log 18), and nothing else changes but `pc`. -/
def Obligations.LoadRegistersFromMemory : Prop :=
  ∀ (x : RegIx) (s : State), s.i.toNat + x.val ≤ 4095 → ∃ t, exec (.ldVxI x) s = .next t ∧
    (∀ j : RegIx, j ≤ x → readV t j = byteAt s (effAddr s j)) ∧ (∀ j : RegIx, x < j → readV t j = readV s j) ∧
    t.pc.toNat = (s.pc.toNat + 2) % 65536 ∧ t.i = s.i ∧ t.stk = s.stk ∧ SameMem s t ∧ SameFb s t ∧ SameLatch s t

/-- R102, R112: with `I + x` above 4095, `LD Vx,[I]` loads the registers whose bytes are inside memory and then raises
`AddressOutOfRange`: the others keep their values and `pc` stays (the spec's decisions D10, D11, log 13). -/
def Obligations.LoadRegistersCutShort : Prop :=
  ∀ (x : RegIx) (s : State), 4095 < s.i.toNat + x.val → ∃ t, exec (.ldVxI x) s = .next t ∧
    Latched .addressOutOfRange t ∧ (∀ j : RegIx, effAddr s j ≤ 4095 → readV t j = byteAt s (effAddr s j)) ∧
    (∀ j : RegIx, 4095 < effAddr s j → readV t j = readV s j) ∧
    t.pc = s.pc ∧ t.i = s.i ∧ t.stk = s.stk ∧ SameMem s t ∧ SameFb s t

/-! ## Draw -/

/-- R90, R91: a `DRW` inside its bounds flips exactly the pixels of its sprite's 1 bits (one-bit pixels, bit 7 leftmost:
the spec's decision D3, log 8), writes `VF` with 1 when a set pixel met a 1 bit and with 0 otherwise (D4, log 9), also
when `x` or `y` is 15 (D25), and changes nothing else but `pc`. -/
def Obligations.DrawFlipsTheSprite : Prop :=
  ∀ (x y : RegIx) (n : Fin 16) (s : State), DrawFits s x y n → ∃ t, exec (.drwVxVyN x y n) s = .next t ∧
    (∀ row k, row < n.val → k < 8 →
      pixelAt t ((readV s x).toNat + k) ((readV s y).toNat + row) =
        (pixelAt s ((readV s x).toNat + k) ((readV s y).toNat + row) ^^ (byteAt s (effAddr s row)).getLsbD (7 - k))) ∧
    (∀ c r, ¬((readV s x).toNat ≤ c ∧ c < (readV s x).toNat + 8 ∧
        (readV s y).toNat ≤ r ∧ r < (readV s y).toNat + n.val) → pixelAt t c r = pixelAt s c r) ∧
    ((∃ row k, row < n.val ∧ k < 8 ∧ pixelAt s ((readV s x).toNat + k) ((readV s y).toNat + row) = true ∧
        (byteAt s (effAddr s row)).getLsbD (7 - k) = true) → readV t 15 = 1) ∧
    (¬(∃ row k, row < n.val ∧ k < 8 ∧ pixelAt s ((readV s x).toNat + k) ((readV s y).toNat + row) = true ∧
        (byteAt s (effAddr s row)).getLsbD (7 - k) = true) → readV t 15 = 0) ∧
    (∀ j, j ≠ 15 → readV t j = readV s j) ∧ t.pc.toNat = (s.pc.toNat + 2) % 65536 ∧ t.i = s.i ∧ t.stk = s.stk ∧
    SameMem s t ∧ SameLatch s t

/-- R90, R112: a `DRW` that leaves its bounds raises `AddressOutOfRange` after the accesses before the first failing one
(the spec's decisions D5, D11, logs 10, 13): the sprite's pixels inside the grid of its first
`min n (4096 - I) (32 - V[y])` rows (of one row at most when `V[x] > 56`) are flipped, no other pixel, `VF` is not
written and `pc` stays. -/
def Obligations.DrawCutShort : Prop :=
  ∀ (x y : RegIx) (n : Fin 16) (s : State), ¬DrawFits s x y n → ∃ t, exec (.drwVxVyN x y n) s = .next t ∧
    Latched .addressOutOfRange t ∧
    (∀ row k, row < (if (readV s x).toNat ≤ 56 then n.val else 1) → k < 8 → s.i.toNat + row < 4096 →
      (readV s y).toNat + row < 32 → (readV s x).toNat + k < 64 →
      pixelAt t ((readV s x).toNat + k) ((readV s y).toNat + row) =
        (pixelAt s ((readV s x).toNat + k) ((readV s y).toNat + row) ^^ spriteAt s row k)) ∧
    (∀ c r, ¬(∃ row k, row < (if (readV s x).toNat ≤ 56 then n.val else 1) ∧ k < 8 ∧ s.i.toNat + row < 4096 ∧
        c = (readV s x).toNat + k ∧ r = (readV s y).toNat + row) → pixelAt t c r = pixelAt s c r) ∧
    SameV s t ∧ t.pc = s.pc ∧ t.i = s.i ∧ t.stk = s.stk ∧ SameMem s t

/-- R90, S6: drawing the identical sprite at the identical location twice in succession restores every pixel; the second
draw's `VF` says whether the first one left a pixel of the sprite set. The second draw runs in any state that has the
first one's pixels, and the same sprite, `I` and coordinates. -/
def Obligations.DrawTwiceRestores : Prop :=
  ∀ (x y x' y' : RegIx) (n : Fin 16) (s s₁ s₂ t : State), DrawFits s x y n →
    exec (.drwVxVyN x y n) s = .next s₁ → s₂.fb = s₁.fb → s₂.i = s.i → SameMem s s₂ →
    readV s₂ x' = readV s x → readV s₂ y' = readV s y → exec (.drwVxVyN x' y' n) s₂ = .next t →
    SameFb s t ∧
      (readV t 15 = 1 ↔ ∃ row k, row < n.val ∧ k < 8 ∧ spriteAt s row k = true ∧
        pixelAt s ((readV s x).toNat + k) ((readV s y).toNat + row) = false)

/-! ## The whole machine -/

/-- The invariant of reachable states holds after reset with an empty image. -/
def Obligations.InvariantAtReset : Prop := Inv State.reset

/-- The invariant holds after reset with any image, over-long ones too. -/
def Obligations.InvariantAfterResetWithAnyImage : Prop := ∀ image : List Byte, Inv (resetWith image)

/-- Every step keeps the invariant: memory canonical, `pc` at most 0x1000 (R13), `I` at most 0x0FFF (R12), at most 16
saved program counters, each at most 0x1000 (R14, R70), the latch consistent (R17, R110). -/
def Obligations.StepKeepsTheInvariant : Prop :=
  ∀ s t : State, Inv s → step s = .next t → Inv t

/-- R14, R44: only `CALL` and `RET` touch the call stack: one pushes one entry, the other removes the last. -/
def Obligations.OnlyCallAndRetTouchTheStack : Prop :=
  ∀ s t : State, step s = .next t →
    t.stk = s.stk ∨ (∃ nnn saved, Executes s (.call nnn) ∧ t.stk = s.stk ++ [saved] ∧
      saved.toNat = (s.pc.toNat + 2) % 65536) ∨ (Executes s .ret ∧ s.stk = t.stk ++ [t.pc])

/-- R12: `I` is written only by `LD I,nnn` and `LD F,Vx`. -/
def Obligations.OnlyIndexLoadsWriteI : Prop :=
  ∀ s t : State, step s = .next t →
    t.i = s.i ∨ (∃ nnn, Executes s (.ldINnn nnn) ∧ t.i.toNat = nnn.toNat) ∨
      (∃ x, Executes s (.ldFVx x) ∧ t.i.toNat = 5 * (readV s x).toNat)

/-- R15: memory is written only by `LD B,Vx`, at the three addresses from `I`, inside memory. -/
def Obligations.OnlyStoreDigitsWritesMemory : Prop :=
  ∀ (s t : State) (a : Nat), step s = .next t → byteAt t a ≠ byteAt s a →
    ∃ x, Executes s (.ldBVx x) ∧ a < 4096 ∧ (a = effAddr s 0 ∨ a = effAddr s 1 ∨ a = effAddr s 2)

/-- R16: a pixel is changed only by `DRW`, inside the sprite's rectangle and the grid. -/
def Obligations.OnlyDrawChangesPixels : Prop :=
  ∀ (s t : State) (c r : Nat), step s = .next t → pixelAt t c r ≠ pixelAt s c r →
    ∃ x y n, Executes s (.drwVxVyN x y n) ∧ c < 64 ∧ r < 32 ∧ (readV s x).toNat ≤ c ∧ c < (readV s x).toNat + 8 ∧
      (readV s y).toNat ≤ r ∧ r < (readV s y).toNat + n.val

/-- R10, R11: which instructions write which general registers: in particular `VF` is written as a side effect by `DRW`
alone. -/
def Obligations.RegisterWriters : Prop :=
  ∀ (s t : State) (j : RegIx), step s = .next t → readV t j ≠ readV s j →
    (∃ kk, Executes s (.ldVxKk j kk)) ∨ (∃ kk, Executes s (.addVxKk j kk)) ∨
      (j = 15 ∧ ∃ x y n, Executes s (.drwVxVyN x y n)) ∨ (∃ x, j ≤ x ∧ Executes s (.ldVxI x))

/-- R13: how a step that raises nothing updates `pc`. -/
def Obligations.PcUpdateTable : Prop :=
  ∀ (s t : State) (i : Instr), Executes s i → step s = .next t → t.halt = false →
    match i with
    | .ret => s.stk.getLast? = some t.pc
    | .call nnn => t.pc.toNat = nnn.toNat
    | .ldVxKk _ _ | .addVxKk _ _ | .ldINnn _ | .drwVxVyN _ _ _ | .ldFVx _ | .ldBVx _ | .ldVxI _ =>
      t.pc.toNat = s.pc.toNat + 2

/-- R112: a step that raises leaves `pc` at the address of the instruction that raised (the spec's decision D10, log 13),
and the call stack and `I` as they were. -/
def Obligations.ErrorLeavesPcAtTheInstruction : Prop :=
  ∀ s t : State, s.halt = false → step s = .next t → t.halt = true → t.pc = s.pc ∧ t.stk = s.stk ∧ t.i = s.i

/-- R110, R134: a running machine halts on exactly these conditions and no others. The depth 16 and the bounds on all
eight pixel positions are the spec's decisions D1 and D5. That `CALL` halts with more than 16 entries too, where R71
tests for exactly 16, is the model's own reading (log 6, DEDUCED); the two agree in every state that meets `Inv`. -/
def Obligations.StepHaltsExactlyOnTheListedErrors : Prop :=
  ∀ s t : State, s.halt = false → step s = .next t →
    (t.halt = true ↔ 4096 ≤ s.pc.toNat + 1 ∨
      (s.pc.toNat + 1 < 4096 ∧ decodeWord (wordAt s s.pc.toNat) = none) ∨
      (Executes s .ret ∧ s.stk = []) ∨
      (∃ nnn, Executes s (.call nnn) ∧ 16 ≤ s.stk.length) ∨
      (∃ x y n, Executes s (.drwVxVyN x y n) ∧ ¬DrawFits s x y n) ∨
      (∃ x, Executes s (.ldBVx x) ∧ 4093 < s.i.toNat) ∨
      (∃ x, Executes s (.ldVxI x) ∧ 4095 < s.i.toNat + x.val))

/-- R110: the kind of error latched names its cause, and no step raises `ImageTooLarge`. That a full stack is one of 16
entries or more, where R71 tests for exactly 16, is the model's own reading (log 6, DEDUCED). -/
def Obligations.ErrorKindNamesTheCause : Prop :=
  ∀ s t : State, s.halt = false → step s = .next t → t.halt = true →
    (t.err = .unimplementedOpcode ∧ s.pc.toNat + 1 < 4096 ∧ t.errInfo = wordAt s s.pc.toNat ∧
      decodeWord t.errInfo = none) ∨
    (t.err = .addressOutOfRange ∧ t.errInfo = 0 ∧ (4096 ≤ s.pc.toNat + 1 ∨ (∃ x y n, Executes s (.drwVxVyN x y n)) ∨
      (∃ x, Executes s (.ldBVx x)) ∨ ∃ x, Executes s (.ldVxI x))) ∨
    (t.err = .stackUnderflow ∧ t.errInfo = 0 ∧ Executes s .ret ∧ s.stk = []) ∨
    (t.err = .stackOverflow ∧ t.errInfo = 0 ∧ (∃ nnn, Executes s (.call nnn)) ∧ 16 ≤ s.stk.length)

/-- R6, R17, R110: in every state `STATUS` shows the state's own latch: its `HALT` as one bit, the code of its `ERR`, its
`ERRINFO`. The codes are 0 to 5, never 6 or 7, and in a state that meets the invariant the `ERR` shown is other than 0
exactly when the `HALT` shown is 1, and the `ERRINFO` shown is 0 unless `ERR` is 1. The codes are the spec's decision
D9, log 5. -/
def Obligations.StatusShowsTheLatch : Prop :=
  (ErrorKind.noError.code = 0 ∧ ErrorKind.unimplementedOpcode.code = 1 ∧ ErrorKind.addressOutOfRange.code = 2 ∧
    ErrorKind.stackUnderflow.code = 3 ∧ ErrorKind.stackOverflow.code = 4 ∧ ErrorKind.imageTooLarge.code = 5) ∧
  (∀ s : State, ((status s).halt = 1 ↔ s.halt = true) ∧ (status s).err = s.err.code ∧
    (status s).errInfo = s.errInfo ∧ (status s).err ≠ 6 ∧ (status s).err ≠ 7) ∧
  ∀ s : State, Inv s → (status s).err ≠ 6 ∧ (status s).err ≠ 7 ∧ ((status s).err ≠ 0 ↔ (status s).halt = 1) ∧
    ((status s).err ≠ 1 → (status s).errInfo = 0)

/-- R41, R133: the bytes `LD B,Vx` stores are seen by the very next fetch: the word fetched next is made of the stored
digits where it lies on the three addresses and of the old bytes elsewhere. -/
def Obligations.StoredDigitsAreFetchedNext : Prop :=
  ∀ (s t : State) (x : RegIx), Executes s (.ldBVx x) → s.i.toNat ≤ 4093 → s.pc.toNat + 3 < 4096 → step s = .next t →
    ∃ hi lo, fetch t = .ok (joinBytes hi lo) t ∧
      (∀ k, k < 3 → effAddr s k = s.pc.toNat + 2 →
        hi.toNat = (readV s x).toNat / 10 ^ (2 - k) % 10) ∧
      (∀ k, k < 3 → effAddr s k = s.pc.toNat + 3 →
        lo.toNat = (readV s x).toNat / 10 ^ (2 - k) % 10) ∧
      ((∀ k, k < 3 → effAddr s k ≠ s.pc.toNat + 2) → hi = byteAt s (s.pc.toNat + 2)) ∧
      ((∀ k, k < 3 → effAddr s k ≠ s.pc.toNat + 3) → lo = byteAt s (s.pc.toNat + 3))

/-- R16, R11: the frame buffer is seen through the collision flag alone: two states that differ only in their pixels step
to states that agree on everything but pixels and, after a `DRW`, `VF`. -/
def Obligations.PixelsReachOnlyTheCollisionFlag : Prop :=
  ∀ (s : State) (f : FrameBuffer) (t t' : State), step s = .next t → step (s.setFb f) = .next t' →
    t'.pc = t.pc ∧ t'.i = t.i ∧ t'.stk = t.stk ∧ SameMem t t' ∧ SameLatch t t' ∧
      (∀ j, j ≠ 15 → readV t' j = readV t j) ∧
      ((¬∃ x y n, Executes s (.drwVxVyN x y n)) → readV t' 15 = readV t 15)

/-- R44, R14: the values held in the call stack are seen by `RET` alone: two states whose stacks differ only in values
step, at any other instruction, to states that agree on everything but the stack. -/
def Obligations.SavedAddressesReachOnlyRet : Prop :=
  ∀ (s : State) (l : List Word) (t t' : State), l.length = s.stk.length → ¬Executes s .ret →
    step s = .next t → step (s.setStk l) = .next t' →
    t'.pc = t.pc ∧ t'.i = t.i ∧ SameV t t' ∧ SameMem t t' ∧ SameFb t t' ∧ SameLatch t t' ∧
      t'.stk.length = t.stk.length

/-- R124: every run halts: from every state, running or not, some number of steps reaches `HALT = 1`, and every run from
reset has an end in the sense of R138. It is the spec's own derivation, from the call stack bounded by its decision D1.
That it holds also from a state with more than 16 entries rests on the model's test of 16 or more (log 6, DEDUCED). -/
def Obligations.EveryRunHalts : Prop :=
  (∀ s : State, ∃ n, (runFor n s).halt = true) ∧ ∀ image : List Byte, ∃ n, EndsAt image n

/-! ## Reset -/

/-- R19, R130: the state after reset with an empty image. `pc` and the zeros of memory are the source's; the zeros of
`V`, `I`, the frame buffer and the empty stack are the spec's decision D8 (log 4), the latch is D9. -/
def Obligations.ResetValues : Prop :=
  State.reset = resetWith [] ∧ State.reset.pc = 0x200 ∧ (∀ j, readV State.reset j = 0) ∧ State.reset.i = 0 ∧
    State.reset.stk = [] ∧ (∀ c r, pixelAt State.reset c r = false) ∧
    (∀ a, 80 ≤ a → byteAt State.reset a = 0) ∧ State.reset.halt = false ∧ State.reset.err = .noError ∧
    State.reset.errInfo = 0

/-- R131, R45: an image of at most 3584 bytes is placed at 0x200 upward, whatever the machine's state before, and
everything else is as reset with an empty image leaves it. -/
def Obligations.ImageIsLoadedAtReset : Prop :=
  ∀ (image : List Byte) (s : State), image.length ≤ 3584 →
    (∀ k (h : k < image.length), byteAt (assertReset image s) (0x200 + k) = image[k]) ∧
    (∀ a, (a < 0x200 ∨ 0x200 + image.length ≤ a) → byteAt (assertReset image s) a = byteAt State.reset a) ∧
    (assertReset image s).pc = 0x200 ∧ SameV State.reset (assertReset image s) ∧ (assertReset image s).i = State.reset.i ∧
    (assertReset image s).stk = State.reset.stk ∧ SameFb State.reset (assertReset image s) ∧
    SameLatch State.reset (assertReset image s)

/-- R131: an image longer than 3584 bytes leaves reset halted with `ERR = 5`, no byte of it in memory, all else as reset
with an empty image, and no instruction is ever executed (the spec's decision D14, log 15). -/
def Obligations.OverlongImageNeverRuns : Prop :=
  ∀ (image : List Byte) (s : State), 3584 < image.length →
    Latched .imageTooLarge (assertReset image s) ∧ (status (assertReset image s)).err = 5 ∧
    SameMem State.reset (assertReset image s) ∧ (assertReset image s).pc = 0x200 ∧
    SameV State.reset (assertReset image s) ∧ (assertReset image s).i = State.reset.i ∧
    (assertReset image s).stk = State.reset.stk ∧ SameFb State.reset (assertReset image s) ∧
    ∀ n, runFor n (assertReset image s) = assertReset image s

/-- R20, S5: after reset with any image the first 80 bytes are the glyph table, and every byte of it has bits 2:0 zero,
whatever the glyphs are (log 3). -/
def Obligations.GlyphTableIsPreloaded : Prop :=
  ∀ (image : List Byte) (a : Nat), a < 80 → byteAt (resetWith image) a = fontByte a ∧ (fontByte a).toNat % 8 = 0
end

