-- ==== Sys2Proof/Laws/Memory.lean ====
section
/-! SUPPORT. The laws of memory: read over write, and that every operation keeps the canonical form. -/

namespace Sys2Proof.Machine

theorem Memory.cellAt_erase (m : Memory) (a a' : Nat) :
    (m.erase a).cellAt a' = if a' = a then unlisted a else m.cellAt a' := by
  induction m with
  | nil => by_cases h : a' = a <;> simp [Memory.erase, Memory.cellAt, h]
  | cons c rest ih =>
    obtain ⟨b, w⟩ := c
    by_cases hb : b = a <;> by_cases ha : a' = a <;> by_cases hc : a' = b <;>
      simp_all [Memory.erase, Memory.cellAt]

theorem Memory.cellAt_insertSorted (m : Memory) (a a' : Nat) (w : Byte) (h : ∀ c ∈ m, c.1 ≠ a) :
    (m.insertSorted a w).cellAt a' = if a' = a then w else m.cellAt a' := by
  induction m with
  | nil => rfl
  | cons c rest ih =>
    obtain ⟨b, u⟩ := c
    have hb : b ≠ a := h _ (List.mem_cons_self ..)
    have ih := ih fun c hc => h c (List.mem_cons_of_mem _ hc)
    unfold Memory.insertSorted
    split
    · rfl
    · by_cases ha : a' = b
      · subst ha; simp [Memory.cellAt, hb]
      · simp [Memory.cellAt, ha, ih]

theorem Memory.fst_ne_of_mem_erase {m : Memory} {a : Nat} {c : Host.Cell} (h : c ∈ m.erase a) : c.1 ≠ a := by
  simpa using (List.mem_filter.mp h).2

/-- A read after a write (R32, R39): the byte written at its address, the old byte everywhere else. -/
@[simp] theorem Memory.cellAt_setCell (m : Memory) (a a' : Nat) (w : Byte) :
    (m.setCell a w).cellAt a' = if a' = a then w else m.cellAt a' := by
  unfold Memory.setCell
  split
  · next h => rw [Memory.cellAt_erase, h]
  · rw [Memory.cellAt_insertSorted _ _ _ _ fun _ hc => Memory.fst_ne_of_mem_erase hc, Memory.cellAt_erase]
    split <;> rfl

theorem Memory.mem_insertSorted {m : Memory} {a : Nat} {w : Byte} {c : Host.Cell} :
    c ∈ m.insertSorted a w ↔ c = (a, w) ∨ c ∈ m := by
  induction m with
  | nil => simp [Memory.insertSorted]
  | cons d rest ih =>
    unfold Memory.insertSorted
    split
    · simp
    · simp only [List.mem_cons, ih]; tauto

theorem Memory.pairwise_insertSorted {m : Memory} {a : Nat} {w : Byte} (h : m.Pairwise fun c d => c.1 < d.1)
    (ha : ∀ c ∈ m, c.1 ≠ a) : (m.insertSorted a w).Pairwise fun c d => c.1 < d.1 := by
  induction m with
  | nil => simp [Memory.insertSorted]
  | cons d rest ih =>
    obtain ⟨hd, hr⟩ := List.pairwise_cons.mp h
    have hda : d.1 ≠ a := ha d (List.mem_cons_self ..)
    unfold Memory.insertSorted
    split
    · next hlt =>
      refine List.pairwise_cons.mpr ⟨fun c hc => ?_, h⟩
      rcases List.mem_cons.mp hc with rfl | hc
      · exact hlt
      · exact Nat.lt_trans hlt (hd c hc)
    · next hlt =>
      refine List.pairwise_cons.mpr ⟨fun c hc => ?_, ih hr fun c hc => ha c (List.mem_cons_of_mem _ hc)⟩
      rcases Memory.mem_insertSorted.mp hc with rfl | hc
      · simp only; omega
      · exact hd c hc

theorem Memory.wf_nil : Memory.wf [] := by simp [Memory.wf]

theorem Memory.wf_erase {m : Memory} (h : m.wf) (a : Nat) : (m.erase a).wf :=
  ⟨h.1.filter _, fun c hc => h.2 c (List.mem_filter.mp hc).1⟩

/-- Every memory operation keeps the canonical form. -/
theorem Memory.wf_setCell {m : Memory} (h : m.wf) {a : Nat} (ha : a < Config.memSize) (w : Byte) :
    (m.setCell a w).wf := by
  unfold Memory.setCell
  split
  · exact Memory.wf_erase h a
  · next hw =>
    refine ⟨Memory.pairwise_insertSorted (Memory.wf_erase h a).1 fun _ hc => Memory.fst_ne_of_mem_erase hc, fun c hc => ?_⟩
    rcases Memory.mem_insertSorted.mp hc with rfl | hc
    · exact ⟨ha, hw⟩
    · exact (Memory.wf_erase h a).2 c hc

end Sys2Proof.Machine
end

