-- ==== Sys2Proof/Laws/State.lean ====
section
/-! SUPPORT. One lemma per field per update of the state, true by rfl; the registers' read-over-write laws; what the
readings of a state see of an update. -/

namespace Sys2Proof.Machine

@[simp] theorem State.setV_v (s : State) (x : RegIx) (b : Byte) : (s.setV x b).v = s.v.set x b := rfl
@[simp] theorem State.setV_i (s : State) (x : RegIx) (b : Byte) : (s.setV x b).i = s.i := rfl
@[simp] theorem State.setV_pc (s : State) (x : RegIx) (b : Byte) : (s.setV x b).pc = s.pc := rfl
@[simp] theorem State.setV_stk (s : State) (x : RegIx) (b : Byte) : (s.setV x b).stk = s.stk := rfl
@[simp] theorem State.setV_mem (s : State) (x : RegIx) (b : Byte) : (s.setV x b).mem = s.mem := rfl
@[simp] theorem State.setV_fb (s : State) (x : RegIx) (b : Byte) : (s.setV x b).fb = s.fb := rfl
@[simp] theorem State.setV_halt (s : State) (x : RegIx) (b : Byte) : (s.setV x b).halt = s.halt := rfl
@[simp] theorem State.setV_err (s : State) (x : RegIx) (b : Byte) : (s.setV x b).err = s.err := rfl
@[simp] theorem State.setV_errInfo (s : State) (x : RegIx) (b : Byte) : (s.setV x b).errInfo = s.errInfo := rfl

@[simp] theorem State.setI_v (s : State) (w : Word) : (s.setI w).v = s.v := rfl
@[simp] theorem State.setI_i (s : State) (w : Word) : (s.setI w).i = w := rfl
@[simp] theorem State.setI_pc (s : State) (w : Word) : (s.setI w).pc = s.pc := rfl
@[simp] theorem State.setI_stk (s : State) (w : Word) : (s.setI w).stk = s.stk := rfl
@[simp] theorem State.setI_mem (s : State) (w : Word) : (s.setI w).mem = s.mem := rfl
@[simp] theorem State.setI_fb (s : State) (w : Word) : (s.setI w).fb = s.fb := rfl
@[simp] theorem State.setI_halt (s : State) (w : Word) : (s.setI w).halt = s.halt := rfl
@[simp] theorem State.setI_err (s : State) (w : Word) : (s.setI w).err = s.err := rfl
@[simp] theorem State.setI_errInfo (s : State) (w : Word) : (s.setI w).errInfo = s.errInfo := rfl

@[simp] theorem State.setPc_v (s : State) (w : Word) : (s.setPc w).v = s.v := rfl
@[simp] theorem State.setPc_i (s : State) (w : Word) : (s.setPc w).i = s.i := rfl
@[simp] theorem State.setPc_pc (s : State) (w : Word) : (s.setPc w).pc = w := rfl
@[simp] theorem State.setPc_stk (s : State) (w : Word) : (s.setPc w).stk = s.stk := rfl
@[simp] theorem State.setPc_mem (s : State) (w : Word) : (s.setPc w).mem = s.mem := rfl
@[simp] theorem State.setPc_fb (s : State) (w : Word) : (s.setPc w).fb = s.fb := rfl
@[simp] theorem State.setPc_halt (s : State) (w : Word) : (s.setPc w).halt = s.halt := rfl
@[simp] theorem State.setPc_err (s : State) (w : Word) : (s.setPc w).err = s.err := rfl
@[simp] theorem State.setPc_errInfo (s : State) (w : Word) : (s.setPc w).errInfo = s.errInfo := rfl

@[simp] theorem State.setStk_v (s : State) (l : List Word) : (s.setStk l).v = s.v := rfl
@[simp] theorem State.setStk_i (s : State) (l : List Word) : (s.setStk l).i = s.i := rfl
@[simp] theorem State.setStk_pc (s : State) (l : List Word) : (s.setStk l).pc = s.pc := rfl
@[simp] theorem State.setStk_stk (s : State) (l : List Word) : (s.setStk l).stk = l := rfl
@[simp] theorem State.setStk_mem (s : State) (l : List Word) : (s.setStk l).mem = s.mem := rfl
@[simp] theorem State.setStk_fb (s : State) (l : List Word) : (s.setStk l).fb = s.fb := rfl
@[simp] theorem State.setStk_halt (s : State) (l : List Word) : (s.setStk l).halt = s.halt := rfl
@[simp] theorem State.setStk_err (s : State) (l : List Word) : (s.setStk l).err = s.err := rfl
@[simp] theorem State.setStk_errInfo (s : State) (l : List Word) : (s.setStk l).errInfo = s.errInfo := rfl

@[simp] theorem State.setMem_v (s : State) (m : Memory) : (s.setMem m).v = s.v := rfl
@[simp] theorem State.setMem_i (s : State) (m : Memory) : (s.setMem m).i = s.i := rfl
@[simp] theorem State.setMem_pc (s : State) (m : Memory) : (s.setMem m).pc = s.pc := rfl
@[simp] theorem State.setMem_stk (s : State) (m : Memory) : (s.setMem m).stk = s.stk := rfl
@[simp] theorem State.setMem_mem (s : State) (m : Memory) : (s.setMem m).mem = m := rfl
@[simp] theorem State.setMem_fb (s : State) (m : Memory) : (s.setMem m).fb = s.fb := rfl
@[simp] theorem State.setMem_halt (s : State) (m : Memory) : (s.setMem m).halt = s.halt := rfl
@[simp] theorem State.setMem_err (s : State) (m : Memory) : (s.setMem m).err = s.err := rfl
@[simp] theorem State.setMem_errInfo (s : State) (m : Memory) : (s.setMem m).errInfo = s.errInfo := rfl

@[simp] theorem State.setFb_v (s : State) (f : FrameBuffer) : (s.setFb f).v = s.v := rfl
@[simp] theorem State.setFb_i (s : State) (f : FrameBuffer) : (s.setFb f).i = s.i := rfl
@[simp] theorem State.setFb_pc (s : State) (f : FrameBuffer) : (s.setFb f).pc = s.pc := rfl
@[simp] theorem State.setFb_stk (s : State) (f : FrameBuffer) : (s.setFb f).stk = s.stk := rfl
@[simp] theorem State.setFb_mem (s : State) (f : FrameBuffer) : (s.setFb f).mem = s.mem := rfl
@[simp] theorem State.setFb_fb (s : State) (f : FrameBuffer) : (s.setFb f).fb = f := rfl
@[simp] theorem State.setFb_halt (s : State) (f : FrameBuffer) : (s.setFb f).halt = s.halt := rfl
@[simp] theorem State.setFb_err (s : State) (f : FrameBuffer) : (s.setFb f).err = s.err := rfl
@[simp] theorem State.setFb_errInfo (s : State) (f : FrameBuffer) : (s.setFb f).errInfo = s.errInfo := rfl

@[simp] theorem takeError_v (e : MachineError) (s : State) : (takeError e s).v = s.v := rfl
@[simp] theorem takeError_i (e : MachineError) (s : State) : (takeError e s).i = s.i := rfl
@[simp] theorem takeError_pc (e : MachineError) (s : State) : (takeError e s).pc = s.pc := rfl
@[simp] theorem takeError_stk (e : MachineError) (s : State) : (takeError e s).stk = s.stk := rfl
@[simp] theorem takeError_mem (e : MachineError) (s : State) : (takeError e s).mem = s.mem := rfl
@[simp] theorem takeError_fb (e : MachineError) (s : State) : (takeError e s).fb = s.fb := rfl
@[simp] theorem takeError_halt (e : MachineError) (s : State) : (takeError e s).halt = true := rfl
@[simp] theorem takeError_err (e : MachineError) (s : State) : (takeError e s).err = e.kind := rfl
@[simp] theorem takeError_errInfo (e : MachineError) (s : State) : (takeError e s).errInfo = e.info := rfl

/-! ## Register reads (R10) -/

@[simp] theorem readV_setV (s : State) (x j : RegIx) (b : Byte) :
    readV (s.setV x b) j = if j = x then b else readV s j := by
  by_cases h : j = x
  · subst h; simp [readV]
  · have hne : x.val ≠ j.val := fun e => h (Fin.ext e.symm)
    simp [readV, h, Vector.getElem_set_ne _ _ hne]

@[simp] theorem readV_setI (s : State) (w : Word) (j : RegIx) : readV (s.setI w) j = readV s j := rfl
@[simp] theorem readV_setPc (s : State) (w : Word) (j : RegIx) : readV (s.setPc w) j = readV s j := rfl
@[simp] theorem readV_setStk (s : State) (l : List Word) (j : RegIx) : readV (s.setStk l) j = readV s j := rfl
@[simp] theorem readV_setMem (s : State) (m : Memory) (j : RegIx) : readV (s.setMem m) j = readV s j := rfl
@[simp] theorem readV_setFb (s : State) (f : FrameBuffer) (j : RegIx) : readV (s.setFb f) j = readV s j := rfl
@[simp] theorem readV_takeError (e : MachineError) (s : State) (j : RegIx) : readV (takeError e s) j = readV s j := rfl

/-! ## Addresses, bytes and pixels -/

@[simp] theorem effAddr_setV (s : State) (x : RegIx) (b : Byte) (k : Nat) : effAddr (s.setV x b) k = effAddr s k := rfl
@[simp] theorem effAddr_setPc (s : State) (w : Word) (k : Nat) : effAddr (s.setPc w) k = effAddr s k := rfl
@[simp] theorem effAddr_setStk (s : State) (l : List Word) (k : Nat) : effAddr (s.setStk l) k = effAddr s k := rfl
@[simp] theorem effAddr_setMem (s : State) (m : Memory) (k : Nat) : effAddr (s.setMem m) k = effAddr s k := rfl
@[simp] theorem effAddr_setFb (s : State) (f : FrameBuffer) (k : Nat) : effAddr (s.setFb f) k = effAddr s k := rfl

@[simp] theorem byteAt_setV (s : State) (x : RegIx) (b : Byte) (a : Nat) : byteAt (s.setV x b) a = byteAt s a := rfl
@[simp] theorem byteAt_setI (s : State) (w : Word) (a : Nat) : byteAt (s.setI w) a = byteAt s a := rfl
@[simp] theorem byteAt_setPc (s : State) (w : Word) (a : Nat) : byteAt (s.setPc w) a = byteAt s a := rfl
@[simp] theorem byteAt_setStk (s : State) (l : List Word) (a : Nat) : byteAt (s.setStk l) a = byteAt s a := rfl
@[simp] theorem byteAt_setFb (s : State) (f : FrameBuffer) (a : Nat) : byteAt (s.setFb f) a = byteAt s a := rfl
@[simp] theorem byteAt_takeError (e : MachineError) (s : State) (a : Nat) : byteAt (takeError e s) a = byteAt s a := rfl

@[simp] theorem pixelAt_setV (s : State) (x : RegIx) (b : Byte) (c r : Nat) : pixelAt (s.setV x b) c r = pixelAt s c r := rfl
@[simp] theorem pixelAt_setI (s : State) (w : Word) (c r : Nat) : pixelAt (s.setI w) c r = pixelAt s c r := rfl
@[simp] theorem pixelAt_setPc (s : State) (w : Word) (c r : Nat) : pixelAt (s.setPc w) c r = pixelAt s c r := rfl
@[simp] theorem pixelAt_setStk (s : State) (l : List Word) (c r : Nat) : pixelAt (s.setStk l) c r = pixelAt s c r := rfl
@[simp] theorem pixelAt_setMem (s : State) (m : Memory) (c r : Nat) : pixelAt (s.setMem m) c r = pixelAt s c r := rfl
@[simp] theorem pixelAt_takeError (e : MachineError) (s : State) (c r : Nat) : pixelAt (takeError e s) c r = pixelAt s c r := rfl

@[simp] theorem setFb_setFb (s : State) (f g : FrameBuffer) : (s.setFb f).setFb g = s.setFb g := rfl

@[simp] theorem nextPc_toNat (s : State) : (nextPc s).toNat = (s.pc.toNat + 2) % 65536 := by
  simp [nextPc]

end Sys2Proof.Machine
end

