-- ==== Sys2Proof/Laws/Ops.lean ====
section
/-! SUPPORT. One lemma per shared operation, saying everything it can do, and the loop rule. -/

namespace Sys2Proof.Machine

/-! ## Sequencing -/

@[simp] theorem Res.ok_andThen {α β : Type} (a : α) (s : State) (f : α → State → Res β) :
    (Res.ok a s).andThen f = f a s := rfl

@[simp] theorem Res.raised_andThen {α β : Type} (s : State) (f : α → State → Res β) :
    (Res.raised s : Res α).andThen f = .raised s := rfl

@[simp] theorem raise_andThen {α β : Type} (e : MachineError) (s : State) (f : α → State → Res β) :
    (raise e s : Res α).andThen f = raise e s := rfl

@[simp] theorem finish_ok (s : State) : finish (.ok () s) = .next s := rfl

@[simp] theorem finish_raised (s : State) : finish (.raised s) = .next s := rfl

@[simp] theorem finish_raise (e : MachineError) (s : State) : finish (raise e s) = .next (takeError e s) := rfl

/-- Every meaning answers a next state: an error is an entry to the halted state, never a stop (log 1). -/
theorem finish_next (r : Res Unit) : ∃ t, finish r = .next t := by
  cases r <;> exact ⟨_, rfl⟩

@[simp] theorem finish_advancePc (s : State) : finish (advancePc s) = .next (s.setPc (nextPc s)) := rfl

@[simp] theorem finish_jumpTo (w : Word) (s : State) : finish (jumpTo w s) = .next (s.setPc w) := rfl

/-- The loop rule. `P k b s` holds after `k` rounds with the carried value `b`; where a round raises, the halted state
satisfies `Q`. -/
theorem forEach_rule {α β : Type} {body : β → α → State → Res β} (xs : List α) (P : Nat → β → State → Prop)
    (Q : State → Prop) {b : β} {s : State} (start : P 0 b s)
    (round : ∀ k (hk : k < xs.length) b s, P k b s →
      (∃ b' s', body b xs[k] s = .ok b' s' ∧ P (k + 1) b' s') ∨ ∃ s', body b xs[k] s = .raised s' ∧ Q s') :
    (∃ b' s', forEach body xs b s = .ok b' s' ∧ P xs.length b' s') ∨
      ∃ s', forEach body xs b s = .raised s' ∧ Q s' := by
  induction xs generalizing P b s with
  | nil => exact .inl ⟨b, s, rfl, start⟩
  | cons x xs ih =>
    rcases round 0 (by simp) b s start with ⟨b', s', hb, hp⟩ | ⟨s', hb, hq⟩
    · have hb : body b x s = .ok b' s' := hb
      rcases ih (fun k => P (k + 1)) hp fun k hk b s hp => round (k + 1) (by simpa using hk) b s hp with h | h
      · exact .inl (by simpa [forEach, hb] using h)
      · exact .inr (by simpa [forEach, hb] using h)
    · have hb : body b x s = .raised s' := hb
      exact .inr ⟨s', by simp [forEach, hb], hq⟩

/-! ## Memory (R31, R32) -/

theorem memRead_of_lt {a : Nat} {s : State} (h : a < 4096) : memRead a s = .ok (byteAt s a) s := by
  simp [memRead, Config.memSize, h]

theorem memRead_of_ge {a : Nat} {s : State} (h : 4096 ≤ a) : memRead a s = raise .addressOutOfRange s := by
  simp [memRead, Config.memSize, Nat.not_lt.mpr h]

theorem memWrite_of_lt {a : Nat} {w : Byte} {s : State} (h : a < 4096) :
    memWrite a w s = .ok () (s.setMem (s.mem.setCell a w)) := by
  simp [memWrite, Config.memSize, h]

theorem memWrite_of_ge {a : Nat} {w : Byte} {s : State} (h : 4096 ≤ a) :
    memWrite a w s = raise .addressOutOfRange s := by
  simp [memWrite, Config.memSize, Nat.not_lt.mpr h]

/-- A byte read after one byte is stored. -/
@[simp] theorem byteAt_setMem_setCell (s : State) (a a' : Nat) (w : Byte) :
    byteAt (s.setMem (s.mem.setCell a w)) a' = if a' = a then w else byteAt s a' := by
  simp [byteAt]

/-! ## Frame buffer (R43) -/

/-- A pixel read after one pixel of the grid is written. -/
theorem FrameBuffer.pixel_setPixel (f : FrameBuffer) {col row : Nat} (hc : col < 64) (hr : row < 32) (bit : Bool)
    (c r : Nat) : FrameBuffer.pixel (FrameBuffer.setPixel f col row bit) c r =
      if c = col ∧ r = row then bit else FrameBuffer.pixel f c r := by
  have hin : col < Config.fbCols ∧ row < Config.fbRows := ⟨hc, hr⟩
  unfold FrameBuffer.setPixel FrameBuffer.pixel
  rw [dif_pos hin]
  by_cases h : c < Config.fbCols ∧ r < Config.fbRows
  · rw [dif_pos h, dif_pos h]
    by_cases hcc : c = col
    · subst hcc
      by_cases hrr : r = row
      · subst hrr; simp
      · simp [hrr, Ne.symm hrr]
    · simp [hcc, Ne.symm hcc]
  · rw [dif_neg h, dif_neg h, if_neg]
    rintro ⟨rfl, rfl⟩
    exact h hin

/-- A pixel outside the grid reads as off: it is no pixel (log 25). -/
theorem pixelAt_outside (s : State) {c r : Nat} (h : ¬(c < 64 ∧ r < 32)) : pixelAt s c r = false := by
  unfold pixelAt FrameBuffer.pixel
  exact dif_neg h

theorem fbXor_inside {col row : Nat} (hc : col < 64) (hr : row < 32) (bit : Bool) (s : State) :
    fbXor col row bit s =
      .ok (pixelAt s col row) (s.setFb (FrameBuffer.setPixel s.fb col row (pixelAt s col row ^^ bit))) := by
  simp [fbXor, Config.fbCols, Config.fbRows, hc, hr]

theorem fbXor_outside {col row : Nat} (h : ¬(col < 64 ∧ row < 32)) (bit : Bool) (s : State) :
    fbXor col row bit s = raise .addressOutOfRange s := by
  unfold fbXor
  exact if_neg h

/-- The pixels after one exclusive-or inside the grid. -/
theorem pixelAt_xor (s : State) {col row : Nat} (hc : col < 64) (hr : row < 32) (bit : Bool) (c r : Nat) :
    pixelAt (s.setFb (FrameBuffer.setPixel s.fb col row (pixelAt s col row ^^ bit))) c r =
      (pixelAt s c r ^^ (decide (c = col ∧ r = row) && bit)) := by
  have h := FrameBuffer.pixel_setPixel s.fb hc hr (pixelAt s col row ^^ bit) c r
  unfold pixelAt at h ⊢
  rw [State.setFb_fb, h]
  split
  · next e => obtain ⟨rfl, rfl⟩ := e; simp
  · next e => simp [e]

/-! ## Call stack (R70, R71) -/

theorem push_of_lt {w : Word} {s : State} (h : s.stk.length < 16) : push w s = .ok () (s.setStk (s.stk ++ [w])) := by
  simp [push, stackFull, Config.stackDepth, Nat.not_le.mpr h]

theorem push_of_ge {w : Word} {s : State} (h : 16 ≤ s.stk.length) : push w s = raise .stackOverflow s := by
  simp [push, stackFull, Config.stackDepth, h]

theorem pop_nil {s : State} (h : s.stk = []) : pop s = raise .stackUnderflow s := by
  simp [pop, h]

theorem pop_append {l : List Word} {w : Word} {s : State} (h : s.stk = l ++ [w]) : pop s = .ok w (s.setStk l) := by
  simp [pop, h]

end Sys2Proof.Machine
end

