-- ==== Sys2Proof/Laws/Draw.lean ====
section
/-! SUPPORT. What the pixel engine does, complete or cut short by an error (spec 42_draw.md R90, 60_exceptions.md R112). -/

namespace Sys2Proof.Machine

/-- `t` is `s` but for its pixels, each the old one exclusive-or `flip`. -/
def Flipped (s t : State) (flip : Nat → Nat → Bool) : Prop :=
  t = s.setFb t.fb ∧ ∀ c r, pixelAt t c r = (pixelAt s c r ^^ flip c r)

theorem Flipped.refl (s : State) : Flipped s s fun _ _ => false := ⟨rfl, by simp⟩

/-- One more pixel of the grid flipped. -/
theorem Flipped.xor {s t : State} {flip : Nat → Nat → Bool} (h : Flipped s t flip) {col row : Nat} (hc : col < 64)
    (hr : row < 32) (bit : Bool) :
    Flipped s (t.setFb (FrameBuffer.setPixel t.fb col row (pixelAt t col row ^^ bit)))
      fun c r => flip c r ^^ (decide (c = col ∧ r = row) && bit) := by
  refine ⟨by rw [h.1]; rfl, fun c r => ?_⟩
  rw [pixelAt_xor t hc hr, h.2, Bool.xor_assoc]

theorem Flipped.congr {s t : State} {f g : Nat → Nat → Bool} (h : Flipped s t f) (e : ∀ c r, f c r = g c r) :
    Flipped s t g := ⟨h.1, fun c r => by rw [h.2, e]⟩

theorem Flipped.trans {s t u : State} {f g : Nat → Nat → Bool} (h : Flipped s t f) (k : Flipped t u g) :
    Flipped s u fun c r => f c r ^^ g c r :=
  ⟨by rw [k.1, h.1]; rfl, fun c r => by rw [k.2, h.2, Bool.xor_assoc]⟩

/-- The first `k` pixels of a sprite row at (`vx`, `row`). -/
def rowFlip (vx row : Nat) (b : Byte) (k : Nat) (c r : Nat) : Bool :=
  decide (r = row ∧ vx ≤ c ∧ c < vx + k) && spriteBit b (c - vx)

theorem rowFlip_succ (vx row : Nat) (b : Byte) (k c r : Nat) :
    rowFlip vx row b (k + 1) c r = (rowFlip vx row b k c r ^^ (decide (c = vx + k ∧ r = row) && spriteBit b k)) := by
  unfold rowFlip
  by_cases hr : r = row
  · by_cases hc : c = vx + k
    · subst hc; simp [hr]
    · have : (vx ≤ c ∧ c < vx + (k + 1)) ↔ (vx ≤ c ∧ c < vx + k) := by omega
      simp [hr, hc, this]
  · simp [hr]

/-- Whether a set pixel meets a set sprite bit among the first `k` pixels of a row. -/
def rowHit (s : State) (vx row : Nat) (b : Byte) (k : Nat) : Bool :=
  (List.range k).any fun j => pixelAt s (vx + j) row && spriteBit b j

theorem rowHit_succ (s : State) (vx row : Nat) (b : Byte) (k : Nat) :
    rowHit s vx row b (k + 1) = (rowHit s vx row b k || (pixelAt s (vx + k) row && spriteBit b k)) := by
  simp [rowHit, List.range_succ]

/-- The eight pixels of a row: all of them when the row fits the grid; otherwise those inside it, up to the first
position outside, and then the error. -/
theorem drawPixels_spec (vx row : Nat) (b : Byte) (hit : Bool) (s : State) :
    (∃ t, forEach (drawPixel vx row b) (List.range 8) hit s = .ok (hit || rowHit s vx row b 8) t ∧
        Flipped s t (rowFlip vx row b 8) ∧ vx ≤ 56 ∧ row < 32) ∨
      ∃ t, forEach (drawPixel vx row b) (List.range 8) hit s = .raised (takeError .addressOutOfRange t) ∧
        Flipped s t (rowFlip vx row b (if row < 32 then 64 - vx else 0)) ∧ ¬(vx ≤ 56 ∧ row < 32) := by
  have key := forEach_rule (body := drawPixel vx row b) (List.range 8)
    (fun k h t => h = (hit || rowHit s vx row b k) ∧ Flipped s t (rowFlip vx row b k) ∧
      (0 < k → vx + k ≤ 64 ∧ row < 32))
    (fun u => ∃ t, u = takeError .addressOutOfRange t ∧
      Flipped s t (rowFlip vx row b (if row < 32 then 64 - vx else 0)) ∧ ¬(vx ≤ 56 ∧ row < 32))
    (b := hit) (s := s) ⟨by simp [rowHit], (Flipped.refl s).congr fun c r => by simp [rowFlip], by simp⟩
    (by
      intro k hk h t ⟨hh, hf, hb⟩
      have hk8 : k < 8 := by simpa using hk
      rw [List.getElem_range]
      by_cases hin : vx + k < 64 ∧ row < 32
      · left
        have hold : pixelAt t (vx + k) row = pixelAt s (vx + k) row := by
          rw [hf.2]; simp [rowFlip]
        refine ⟨_, _, by rw [drawPixel, fbXor_inside hin.1 hin.2]; rfl, ?_, ?_, fun _ => ⟨by omega, hin.2⟩⟩
        · rw [rowHit_succ, hh, hold, collides, Bool.or_assoc]
        · exact (hf.xor hin.1 hin.2 _).congr fun c r => (rowFlip_succ ..).symm
      · right
        refine ⟨_, by rw [drawPixel, fbXor_outside hin]; rfl, t, rfl, ?_, by omega⟩
        refine hf.congr fun c r => ?_
        split
        · next hr =>
          rcases Nat.eq_zero_or_pos k with rfl | hpos
          · rw [show 64 - vx = 0 by omega]
          · have := hb hpos
            rw [show 64 - vx = k by omega]
        · next hr =>
          rcases Nat.eq_zero_or_pos k with rfl | hpos
          · rfl
          · exact absurd (hb hpos).2 hr)
  rcases key with ⟨h, t, he, hh, hf, hb⟩ | ⟨u, he, t, rfl, hf, hn⟩
  · left
    rw [List.length_range] at hh hf hb
    subst hh
    have := hb (by omega)
    exact ⟨t, he, hf, by omega, this.2⟩
  · exact .inr ⟨t, he, hf, hn⟩

/-- The sprite's pixels: its first `rows` rows, the first `width` columns of each. -/
def spriteFlip (s : State) (vx vy rows width : Nat) (c r : Nat) : Bool :=
  decide (vy ≤ r ∧ r < vy + rows ∧ vx ≤ c ∧ c < vx + width) && spriteAt s (r - vy) (c - vx)

/-- Whether a set pixel meets a set sprite bit in the first `rows` rows. -/
def spriteHit (s : State) (vx vy rows : Nat) : Bool :=
  (List.range rows).any fun row => rowHit s vx (vy + row) (byteAt s (effAddr s row)) 8

/-- How many rows of an `n`-row sprite are drawn, in whole or in part, before an access fails. -/
def drawnRows (s : State) (vx vy n : Nat) : Nat :=
  min (if vx ≤ 56 then n else min 1 n) (min (4096 - s.i.toNat) (32 - vy))

/-- How many columns of each drawn row are inside the grid. -/
def drawnWidth (vx : Nat) : Nat := min 8 (64 - vx)

theorem spriteFlip_succ (s : State) (vx vy rows width c r : Nat) :
    spriteFlip s vx vy (rows + 1) width c r =
      (spriteFlip s vx vy rows width c r ^^ rowFlip vx (vy + rows) (byteAt s (effAddr s rows)) width c r) := by
  unfold spriteFlip rowFlip spriteAt
  by_cases hr : r = vy + rows
  · subst hr; simp
  · have h : (vy ≤ r ∧ r < vy + (rows + 1) ∧ vx ≤ c ∧ c < vx + width) ↔
        (vy ≤ r ∧ r < vy + rows ∧ vx ≤ c ∧ c < vx + width) := by omega
    simp [hr, h]

theorem spriteFlip_zero (s : State) (vx vy width c r : Nat) : spriteFlip s vx vy 0 width c r = false := by
  unfold spriteFlip
  rw [decide_eq_false (by omega), Bool.false_and]

/-- The sprite: every row when all its accesses are inside memory and grid; otherwise the rows, or the part of the
first row, before the first access that fails, and then the error. -/
theorem drawSprite_spec (vx vy n : Nat) (s : State) :
    (∃ t, drawSprite vx vy n s = .ok (spriteHit s vx vy n) t ∧ Flipped s t (spriteFlip s vx vy n 8) ∧
        (0 < n → s.i.toNat + n ≤ 4096 ∧ vx ≤ 56 ∧ vy + n ≤ 32)) ∨
      ∃ t, drawSprite vx vy n s = .raised (takeError .addressOutOfRange t) ∧
        Flipped s t (spriteFlip s vx vy (drawnRows s vx vy n) (drawnWidth vx)) ∧
        0 < n ∧ ¬(s.i.toNat + n ≤ 4096 ∧ vx ≤ 56 ∧ vy + n ≤ 32) := by
  have key := forEach_rule (body := drawRow vx vy) (List.range n)
    (fun k h t => h = spriteHit s vx vy k ∧ Flipped s t (spriteFlip s vx vy k 8) ∧
      (0 < k → s.i.toNat + k ≤ 4096 ∧ vx ≤ 56 ∧ vy + k ≤ 32))
    (fun u => ∃ t, u = takeError .addressOutOfRange t ∧
      Flipped s t (spriteFlip s vx vy (drawnRows s vx vy n) (drawnWidth vx)) ∧
      0 < n ∧ ¬(s.i.toNat + n ≤ 4096 ∧ vx ≤ 56 ∧ vy + n ≤ 32))
    (b := false) (s := s)
    ⟨by simp [spriteHit], (Flipped.refl s).congr fun c r => (spriteFlip_zero ..).symm, by simp⟩
    (by
      intro k hk h t ⟨hh, hf, hb⟩
      have hkn : k < n := by simpa using hk
      rw [List.getElem_range]
      have haddr : effAddr t k = effAddr s k := by rw [hf.1, effAddr_setFb]
      have hbyte : ∀ a, byteAt t a = byteAt s a := fun a => by rw [hf.1, byteAt_setFb]
      have hstop : (∀ c r, spriteFlip s vx vy k 8 c r =
          spriteFlip s vx vy (drawnRows s vx vy n) (drawnWidth vx) c r) ∨ (k = 0 ∧ s.i.toNat < 4096 ∧ vy < 32) ∨
          (s.i.toNat + k < 4096 ∧ vy + k < 32) := by
        by_cases hm : s.i.toNat + k < 4096 ∧ vy + k < 32
        · exact .inr (.inr hm)
        · left
          intro c r
          rcases Nat.eq_zero_or_pos k with rfl | hpos
          · rw [spriteFlip_zero, show drawnRows s vx vy n = 0 by unfold drawnRows; omega, spriteFlip_zero]
          · have := hb hpos
            rw [show drawnRows s vx vy n = k by unfold drawnRows; rw [if_pos (by omega)]; omega,
              show drawnWidth vx = 8 by unfold drawnWidth; omega]
      by_cases hmem : effAddr t k < 4096
      · have hm : s.i.toNat + k < 4096 := by rw [haddr] at hmem; exact hmem
        rcases drawPixels_spec vx (vy + k) (byteAt t (effAddr t k)) h t with ⟨u, he, hu, hvx, hrow⟩ | ⟨u, he, hu, hn⟩
        · left
          refine ⟨_, u, by rw [drawRow, memRead_of_lt hmem]; exact he, ?_, ?_, fun _ => by omega⟩
          · have hrh : rowHit t vx (vy + k) (byteAt t (effAddr t k)) 8 =
                rowHit s vx (vy + k) (byteAt s (effAddr s k)) 8 := by
              unfold rowHit
              rw [haddr, hbyte]
              congr 1
              funext j
              rw [hf.2]
              simp [spriteFlip]
            rw [hh, hrh, spriteHit, spriteHit, List.range_succ, List.any_append]
            simp
          · refine (hf.trans hu).congr fun c r => ?_
            rw [spriteFlip_succ, haddr, hbyte]
        · right
          refine ⟨_, by rw [drawRow, memRead_of_lt hmem]; exact he, u, rfl, ?_, by omega, by omega⟩
          refine (hf.trans hu).congr fun c r => ?_
          by_cases hrow : vy + k < 32
          · rcases Nat.eq_zero_or_pos k with rfl | hpos
            · rw [if_pos hrow, show drawnRows s vx vy n = 0 + 1 by
                unfold drawnRows; rw [if_neg (by omega)]; omega,
                show drawnWidth vx = 64 - vx by unfold drawnWidth; omega, spriteFlip_succ, spriteFlip_zero,
                spriteFlip_zero, haddr, hbyte]
            · have := hb hpos
              omega
          · have h0 : ∀ b, rowFlip vx (vy + k) b 0 c r = false := fun b => by
              unfold rowFlip; rw [decide_eq_false (by omega), Bool.false_and]
            rw [if_neg hrow, h0, Bool.xor_false]
            rcases hstop with h | h | h
            · exact h c r
            · omega
            · omega
      · have hm : ¬s.i.toNat + k < 4096 := by rw [haddr] at hmem; exact hmem
        right
        refine ⟨_, by rw [drawRow, memRead_of_ge (by omega)]; rfl, t, rfl, hf.congr fun c r => ?_, by omega, by omega⟩
        rcases hstop with h | h | h
        · exact h c r
        · omega
        · omega)
  rcases key with ⟨h, t, he, hh, hf, hb⟩ | ⟨u, he, t, rfl, hq⟩
  · rw [List.length_range] at hh hf hb
    subst hh
    exact .inl ⟨t, he, hf, hb⟩
  · exact .inr ⟨t, he, hq⟩

end Sys2Proof.Machine
end

