-- ==== Sys2Proof/Laws/IndexMemory.lean ====
section
/-! SUPPORT. What the register load and the three-byte store do, complete or cut short by an error (spec
43_index_memory.md R101, R102, 60_exceptions.md R112). -/

namespace Sys2Proof.Machine

theorem upTo_length (x : RegIx) : (upTo x).length = x.val + 1 := by
  simp [upTo]

theorem upTo_getElem (x : RegIx) {k : Nat} (hk : k < (upTo x).length) :
    (upTo x)[k] = ⟨k, by rw [upTo_length] at hk; omega⟩ := by
  ext; simp [upTo]

/-- `t` is `s` but for its general registers. -/
def OnlyV (s t : State) : Prop := t = { s with v := t.v }

/-- The loop of `LD Vx,[I]`: every register up to `V[x]` loaded when all the bytes are inside memory; otherwise those
whose byte is, and then the error. -/
theorem loadRegisters_spec (x : RegIx) (s : State) :
    (∃ t, forEach loadRegister (upTo x) () s = .ok () t ∧ OnlyV s t ∧ s.i.toNat + x.val < 4096 ∧
        ∀ j : RegIx, readV t j = if j ≤ x then byteAt s (effAddr s j) else readV s j) ∨
      ∃ t, forEach loadRegister (upTo x) () s = .raised (takeError .addressOutOfRange t) ∧ OnlyV s t ∧
        ¬s.i.toNat + x.val < 4096 ∧
        ∀ j : RegIx, readV t j = if effAddr s j < 4096 then byteAt s (effAddr s j) else readV s j := by
  have key := forEach_rule (body := loadRegister) (upTo x)
    (fun k _ t => OnlyV s t ∧ (0 < k → s.i.toNat + k ≤ 4096) ∧
      ∀ j : RegIx, readV t j = if j.val < k then byteAt s (effAddr s j) else readV s j)
    (fun u => ∃ t, u = takeError .addressOutOfRange t ∧ OnlyV s t ∧ ¬s.i.toNat + x.val < 4096 ∧
      ∀ j : RegIx, readV t j = if effAddr s j < 4096 then byteAt s (effAddr s j) else readV s j)
    (b := ()) (s := s) ⟨rfl, by simp, by simp⟩
    (by
      intro k hk _ t ⟨ht, hb, hv⟩
      rw [upTo_getElem x hk]
      have hkx : k < x.val + 1 := by rwa [upTo_length] at hk
      have haddr : ∀ j, effAddr t j = effAddr s j := fun j => by rw [ht]; rfl
      by_cases hm : s.i.toNat + k < 4096
      · left
        refine ⟨(), _, by rw [loadRegister, memRead_of_lt (by rw [haddr]; exact hm)]; rfl, ?_, fun _ => by omega,
          fun j => ?_⟩
        · rw [OnlyV, ht]; rfl
        · rw [readV_setV, haddr, show byteAt t (effAddr s k) = byteAt s (effAddr s k) by rw [ht]; rfl, hv]
          by_cases hj : j.val = k
          · rw [if_pos (Fin.ext hj), if_pos (by omega), hj]
          · rw [if_neg fun e => hj (by rw [e])]
            by_cases hlt : j.val < k
            · rw [if_pos hlt, if_pos (by omega)]
            · rw [if_neg hlt, if_neg (by omega)]
      · right
        refine ⟨_, by rw [loadRegister, memRead_of_ge (by rw [haddr]; simp only [effAddr]; omega)]; rfl, t, rfl, ht,
          by omega, fun j => ?_⟩
        rw [hv]
        have hiff : j.val < k ↔ effAddr s j < 4096 := by
          simp only [effAddr]
          rcases Nat.eq_zero_or_pos k with rfl | hpos
          · omega
          · have := hb hpos; omega
        by_cases hlt : j.val < k
        · rw [if_pos hlt, if_pos (hiff.mp hlt)]
        · rw [if_neg hlt, if_neg fun h => hlt (hiff.mpr h)])
  rcases key with ⟨_, t, he, ht, hb, hv⟩ | ⟨u, he, t, rfl, hq⟩
  · rw [upTo_length] at hb hv
    refine .inl ⟨t, he, ht, by have := hb (by omega); omega, fun j => ?_⟩
    rw [hv]
    have hiff : j.val < x.val + 1 ↔ j ≤ x := by rw [Fin.le_def]; omega
    simp only [hiff]
  · exact .inr ⟨t, he, hq⟩

/-- The digits as numbers (R101). -/
theorem hundreds_toNat (b : Byte) : (hundreds b).toNat = b.toNat / 100 := by
  have := b.isLt
  rw [hundreds, BitVec.toNat_ofNat, Nat.mod_eq_of_lt (by omega)]

theorem tens_toNat (b : Byte) : (tens b).toNat = b.toNat / 10 % 10 := by
  rw [tens, BitVec.toNat_ofNat, Nat.mod_eq_of_lt (by omega)]

theorem ones_toNat (b : Byte) : (ones b).toNat = b.toNat % 10 := by
  rw [ones, BitVec.toNat_ofNat, Nat.mod_eq_of_lt (by omega)]

/-- The glyph address as a number (R100). -/
theorem glyphAddress_toNat (b : Byte) : (glyphAddress b).toNat = 5 * b.toNat := by
  have := b.isLt
  rw [glyphAddress, BitVec.toNat_ofNat, Nat.mod_eq_of_lt (by omega), Nat.mul_comm]

end Sys2Proof.Machine
end

