-- ==== Sys2Proof/Laws/Exec.lean ====
section
/-! SUPPORT. What executing each instruction comes to, as updates of the state before it: later proofs cite these and
unfold no meaning. -/

namespace Sys2Proof.Machine

theorem exec_ret_of_append {s : State} {l : List Word} {w : Word} (h : s.stk = l ++ [w]) :
    exec .ret s = .next ((s.setStk l).setPc w) := by
  simp [exec, execRet, pop_append h]

theorem exec_ret_of_nil {s : State} (h : s.stk = []) : exec .ret s = .next (takeError .stackUnderflow s) := by
  simp [exec, execRet, pop_nil h]

theorem exec_call_of_lt {s : State} (nnn : Addr12) (h : s.stk.length < 16) :
    exec (.call nnn) s = .next ((s.setStk (s.stk ++ [nextPc s])).setPc (zext16 nnn)) := by
  simp [exec, execCall, push_of_lt h]

theorem exec_call_of_ge {s : State} (nnn : Addr12) (h : 16 ≤ s.stk.length) :
    exec (.call nnn) s = .next (takeError .stackOverflow s) := by
  simp [exec, execCall, push_of_ge h]

theorem exec_ldVxKk (x : RegIx) (kk : Byte) (s : State) :
    exec (.ldVxKk x kk) s = .next ((s.setV x kk).setPc (nextPc s)) := rfl

theorem exec_addVxKk (x : RegIx) (kk : Byte) (s : State) :
    exec (.addVxKk x kk) s = .next ((s.setV x (addByte (readV s x) kk)).setPc (nextPc s)) := rfl

theorem exec_ldINnn (nnn : Addr12) (s : State) :
    exec (.ldINnn nnn) s = .next ((s.setI (zext16 nnn)).setPc (nextPc s)) := rfl

theorem exec_ldFVx (x : RegIx) (s : State) :
    exec (.ldFVx x) s = .next ((s.setI (glyphAddress (readV s x))).setPc (nextPc s)) := rfl

/-- `DRW`: the whole sprite, `VF` and `pc`; or the part before the first access that fails, and the error. -/
theorem exec_drwVxVyN_cases (x y : RegIx) (n : Fin 16) (s : State) :
    (∃ t, exec (.drwVxVyN x y n) s =
          .next ((t.setV 15 (collisionByte (spriteHit s (readV s x).toNat (readV s y).toNat n))).setPc (nextPc s)) ∧
        Flipped s t (spriteFlip s (readV s x).toNat (readV s y).toNat n 8) ∧
        (0 < n.val → s.i.toNat + n.val ≤ 4096 ∧ (readV s x).toNat ≤ 56 ∧ (readV s y).toNat + n.val ≤ 32)) ∨
      ∃ t, exec (.drwVxVyN x y n) s = .next (takeError .addressOutOfRange t) ∧
        Flipped s t (spriteFlip s (readV s x).toNat (readV s y).toNat
          (drawnRows s (readV s x).toNat (readV s y).toNat n) (drawnWidth (readV s x).toNat)) ∧
        0 < n.val ∧ ¬(s.i.toNat + n.val ≤ 4096 ∧ (readV s x).toNat ≤ 56 ∧ (readV s y).toNat + n.val ≤ 32) := by
  rcases drawSprite_spec (readV s x).toNat (readV s y).toNat n.val s with ⟨t, he, hf, hb⟩ | ⟨t, he, hf, hb⟩
  · refine .inl ⟨t, ?_, hf, hb⟩
    have hpc : nextPc (t.setV 15 (collisionByte (spriteHit s (readV s x).toNat (readV s y).toNat n))) = nextPc s := by
      rw [hf.1]; rfl
    simp only [exec, execDrwVxVyN, he, Res.ok_andThen, finish_advancePc, hpc]
  · exact .inr ⟨t, by simp only [exec, execDrwVxVyN, he, Res.raised_andThen, finish_raised], hf, hb⟩

/-- The memory after the three digits of `V[x]` are stored. -/
def digitsStored (s : State) (x : RegIx) : Memory :=
  ((s.mem.setCell (effAddr s 0) (hundreds (readV s x))).setCell (effAddr s 1) (tens (readV s x))).setCell (effAddr s 2)
    (ones (readV s x))

theorem exec_ldBVx_of_le {s : State} (x : RegIx) (h : s.i.toNat ≤ 4093) :
    exec (.ldBVx x) s = .next ((s.setMem (digitsStored s x)).setPc (nextPc s)) := by
  have h0 : effAddr s 0 < 4096 := by simp only [effAddr]; omega
  have h1 : effAddr s 1 < 4096 := by simp only [effAddr]; omega
  have h2 : effAddr s 2 < 4096 := by simp only [effAddr]; omega
  simp only [exec, execLdBVx, Res.ok_andThen, effAddr_setMem, readV_setMem, memWrite_of_lt h0, memWrite_of_lt h1,
    memWrite_of_lt h2]
  rfl

/-- `LD B,Vx` near the top of memory: the digits whose addresses are inside it, and then the error. -/
theorem exec_ldBVx_of_gt {s : State} (x : RegIx) (h : 4093 < s.i.toNat) :
    ∃ m, exec (.ldBVx x) s = .next (takeError .addressOutOfRange (s.setMem m)) ∧
      ((s.i.toNat = 4094 ∧
          m = (s.mem.setCell (effAddr s 0) (hundreds (readV s x))).setCell (effAddr s 1) (tens (readV s x))) ∨
        (s.i.toNat = 4095 ∧ m = s.mem.setCell (effAddr s 0) (hundreds (readV s x))) ∨
        (4096 ≤ s.i.toNat ∧ m = s.mem)) := by
  have h2 : 4096 ≤ effAddr s 2 := by simp only [effAddr]; omega
  simp only [exec, execLdBVx]
  by_cases h0 : effAddr s 0 < 4096
  · simp only [memWrite_of_lt h0, Res.ok_andThen, effAddr_setMem, readV_setMem]
    by_cases h1 : effAddr s 1 < 4096
    · simp only [memWrite_of_lt h1, Res.ok_andThen, effAddr_setMem, readV_setMem, memWrite_of_ge h2]
      exact ⟨_, rfl, .inl ⟨by simp only [effAddr] at *; omega, rfl⟩⟩
    · simp only [memWrite_of_ge (Nat.not_lt.mp h1)]
      exact ⟨_, rfl, .inr (.inl ⟨by simp only [effAddr] at *; omega, rfl⟩)⟩
  · simp only [memWrite_of_ge (Nat.not_lt.mp h0)]
    exact ⟨s.mem, rfl, .inr (.inr ⟨by simp only [effAddr] at *; omega, rfl⟩)⟩

/-- `LD Vx,[I]`: every register up to `V[x]`, and `pc`; or those whose byte is inside memory, and the error. -/
theorem exec_ldVxI_cases (x : RegIx) (s : State) :
    (∃ t, exec (.ldVxI x) s = .next (t.setPc (nextPc s)) ∧ OnlyV s t ∧ s.i.toNat + x.val < 4096 ∧
        ∀ j : RegIx, readV t j = if j ≤ x then byteAt s (effAddr s j) else readV s j) ∨
      ∃ t, exec (.ldVxI x) s = .next (takeError .addressOutOfRange t) ∧ OnlyV s t ∧ ¬s.i.toNat + x.val < 4096 ∧
        ∀ j : RegIx, readV t j = if effAddr s j < 4096 then byteAt s (effAddr s j) else readV s j := by
  rcases loadRegisters_spec x s with ⟨t, he, ht, hb⟩ | ⟨t, he, hq⟩
  · refine .inl ⟨t, ?_, ht, hb⟩
    have hpc : nextPc t = nextPc s := by rw [ht]; rfl
    simp only [exec, execLdVxI, he, Res.ok_andThen, finish_advancePc, hpc]
  · exact .inr ⟨t, by simp only [exec, execLdVxI, he, Res.raised_andThen, finish_raised], hq⟩

end Sys2Proof.Machine
end

