-- ==== Sys2Proof/Laws/Step.lean ====
section
/-! SUPPORT. What a step can do (spec 30_encoding.md R53): one inversion lemma, which later proofs cite instead of
unfolding the step; the image load. -/

namespace Sys2Proof.Machine

theorem joinBytes_toNat (hi lo : Byte) : (joinBytes hi lo).toNat = 256 * hi.toNat + lo.toNat := by
  have := lo.isLt
  rw [joinBytes, BitVec.toNat_append, Nat.shiftLeft_eq, ← Nat.shiftLeft_eq, ← Nat.shiftLeft_add_eq_or_of_lt lo.isLt,
    Nat.shiftLeft_eq]
  omega

/-- Every meaning answers a next state (log 1). -/
theorem exec_next (i : Instr) (s : State) : ∃ t, exec i s = .next t := by
  cases i <;> simp only [exec, execRet, execCall, execLdVxKk, execAddVxKk, execLdINnn, execDrwVxVyN, execLdFVx,
    execLdBVx, execLdVxI] <;> exact finish_next _

/-- Fetch and decode: out of memory, an undefined word, or the instruction at `pc` with the state unchanged. -/
theorem fetchDecode_spec (s : State) :
    (4096 ≤ s.pc.toNat + 1 ∧ fetchDecode s = raise .addressOutOfRange s) ∨
      (s.pc.toNat + 1 < 4096 ∧ decodeWord (wordAt s s.pc.toNat) = none ∧
        fetchDecode s = raise (.unimplementedOpcode (wordAt s s.pc.toNat)) s) ∨
      ∃ i, s.pc.toNat + 1 < 4096 ∧ decodeWord (wordAt s s.pc.toNat) = some i ∧ fetchDecode s = .ok i s := by
  by_cases h : s.pc.toNat + 1 < 4096
  · right
    have hf : fetch s = .ok (wordAt s s.pc.toNat) s := by
      rw [fetch, memRead_of_lt (by omega), Res.ok_andThen, memRead_of_lt h]; rfl
    rw [fetchDecode, hf, Res.ok_andThen, decodeOrRaise]
    cases hd : decodeWord (wordAt s s.pc.toNat) with
    | none => exact .inl ⟨h, rfl, rfl⟩
    | some i => exact .inr ⟨i, h, rfl, rfl⟩
  · left
    refine ⟨by omega, ?_⟩
    rw [fetchDecode, fetch]
    by_cases h0 : s.pc.toNat < 4096
    · rw [memRead_of_lt h0, Res.ok_andThen, memRead_of_ge (by omega)]; rfl
    · rw [memRead_of_ge (by omega)]; rfl

/-- Everything a step can do: nothing on a halted machine; the fetch error; the undefined word; the execution of the
decoded instruction. -/
theorem step_cases (s : State) :
    (s.halt = true ∧ step s = .next s) ∨
      (s.halt = false ∧ 4096 ≤ s.pc.toNat + 1 ∧ step s = .next (takeError .addressOutOfRange s)) ∨
      (s.halt = false ∧ s.pc.toNat + 1 < 4096 ∧ decodeWord (wordAt s s.pc.toNat) = none ∧
        step s = .next (takeError (.unimplementedOpcode (wordAt s s.pc.toNat)) s)) ∨
      ∃ i, s.halt = false ∧ s.pc.toNat + 1 < 4096 ∧ decodeWord (wordAt s s.pc.toNat) = some i ∧ step s = exec i s := by
  unfold step
  cases hh : s.halt with
  | true => exact .inl ⟨rfl, rfl⟩
  | false =>
    rcases fetchDecode_spec s with ⟨h, hf⟩ | ⟨h, hd, hf⟩ | ⟨i, h, hd, hf⟩
    · exact .inr (.inl ⟨rfl, h, by rw [hf]; rfl⟩)
    · exact .inr (.inr (.inl ⟨rfl, h, hd, by rw [hf]; rfl⟩))
    · exact .inr (.inr (.inr ⟨i, rfl, h, hd, by rw [hf]; rfl⟩))

/-! ## Reset (R130, R131) -/

/-- The image load: byte `k` of the image at `base + k`, every other byte as before. -/
theorem cellAt_loadImage (image : List Byte) (base : Nat) (m : Memory) (a : Nat) :
    (loadImage base image m).cellAt a =
      if h : base ≤ a ∧ a - base < image.length then image[a - base]'h.2 else m.cellAt a := by
  induction image generalizing base m with
  | nil => simp [loadImage]
  | cons b rest ih =>
    rw [loadImage, ih]
    by_cases h : base + 1 ≤ a ∧ a - (base + 1) < rest.length
    · have h' : base ≤ a ∧ a - base < (b :: rest).length := ⟨by omega, by simp; omega⟩
      rw [dif_pos h, dif_pos h']
      have : a - base = a - (base + 1) + 1 := by omega
      simp [this]
    · rw [dif_neg h, Memory.cellAt_setCell]
      by_cases ha : a = base
      · subst ha; simp
      · rw [if_neg ha, dif_neg]
        simp only [List.length_cons]
        omega

/-- The image load keeps the canonical form as long as the image fits memory. -/
theorem wf_loadImage (image : List Byte) (base : Nat) (m : Memory) (h : m.wf) (hl : base + image.length ≤ 4096) :
    (loadImage base image m).wf := by
  induction image generalizing base m with
  | nil => exact h
  | cons b rest ih =>
    simp only [List.length_cons] at hl
    exact ih (base + 1) _ (Memory.wf_setCell h (by simp only [Config.memSize]; omega) b) (by omega)

/-- The host's placement: on a running machine with room for a word at `pc`, the next step is the execution of the
instruction the placed word decodes to. -/
theorem step_withFetchWord (s : State) (nbits w : Nat) (i : Instr) (hr : s.halt = false)
    (hp : s.pc.toNat + 1 < 4096) (hd : decodeTableWord nbits w = some i) :
    step (s.withFetchWord nbits w) = exec i (s.withFetchWord nbits w) := by
  have hword : ∀ op, wordAt (placeWord op s) s.pc.toNat = joinBytes (hiByte op) (loByte op) := fun op => by
    unfold placeWord wordAt byteAt
    rw [if_pos (show s.pc.toNat + 1 < Config.memSize from hp)]
    simp
  have hdec : decodeWord (joinBytes (hiByte (BitVec.ofNat 16 (w % 2 ^ nbits))) (loByte (BitVec.ofNat 16 (w % 2 ^ nbits)))) =
      some i := by
    simp only [decodeTableWord, decode] at hd
    split at hd
    · next j _ hj =>
      split at hj
      · next k hk => cases hj; cases hd; exact hk
      · cases hj
    · cases hd
  have hpc : (s.withFetchWord nbits w).pc = s.pc ∧ (s.withFetchWord nbits w).halt = s.halt := by
    unfold State.withFetchWord placeWord
    split <;> exact ⟨rfl, rfl⟩
  rcases step_cases (s.withFetchWord nbits w) with h | h | h | ⟨j, _, _, hj, he⟩
  · rw [hpc.2, hr] at h; exact absurd h.1 (by simp)
  · rw [hpc.1] at h; omega
  · rw [hpc.1, State.withFetchWord, hword, hdec] at h; exact absurd h.2.2.1 (by simp)
  · rw [hpc.1, State.withFetchWord, hword, hdec] at hj
    cases hj
    exact he

end Sys2Proof.Machine
end

