-- ==== Sys2Proof/Laws/Effect.lean ====
section
/-! SUPPORT. Everything one step can do, said once as a relation between the state before and the state after: an
invariant or a whole-machine rule is then one case analysis. -/

namespace Sys2Proof.Machine

/-- What a drawn-on state keeps. -/
theorem Flipped.fields {s t : State} {flip : Nat → Nat → Bool} (h : Flipped s t flip) :
    t.v = s.v ∧ t.i = s.i ∧ t.pc = s.pc ∧ t.stk = s.stk ∧ t.mem = s.mem ∧ t.halt = s.halt ∧ t.err = s.err ∧
      t.errInfo = s.errInfo := by
  rw [h.1]; exact ⟨rfl, rfl, rfl, rfl, rfl, rfl, rfl, rfl⟩

/-- What a register load keeps. -/
theorem OnlyV.fields {s t : State} (h : OnlyV s t) :
    t.i = s.i ∧ t.pc = s.pc ∧ t.stk = s.stk ∧ t.mem = s.mem ∧ t.fb = s.fb ∧ t.halt = s.halt ∧ t.err = s.err ∧
      t.errInfo = s.errInfo := by
  rw [h]; exact ⟨rfl, rfl, rfl, rfl, rfl, rfl, rfl, rfl⟩

theorem drawFits_iff {s : State} {x y : RegIx} {n : Fin 16} :
    DrawFits s x y n ↔
      (0 < n.val → s.i.toNat + n.val ≤ 4096 ∧ (readV s x).toNat ≤ 56 ∧ (readV s y).toNat + n.val ≤ 32) := by
  unfold DrawFits; omega

/-- What executing an instruction can come to. -/
inductive Effect (s : State) : Instr → State → Prop where
  | ret (below : List Word) (top : Word) : s.stk = below ++ [top] → Effect s .ret ((s.setStk below).setPc top)
  | retEmpty : s.stk = [] → Effect s .ret (takeError .stackUnderflow s)
  | call (nnn : Addr12) : s.stk.length < 16 →
      Effect s (.call nnn) ((s.setStk (s.stk ++ [nextPc s])).setPc (zext16 nnn))
  | callFull (nnn : Addr12) : 16 ≤ s.stk.length → Effect s (.call nnn) (takeError .stackOverflow s)
  | ldVxKk (x : RegIx) (kk : Byte) : Effect s (.ldVxKk x kk) ((s.setV x kk).setPc (nextPc s))
  | addVxKk (x : RegIx) (kk : Byte) :
      Effect s (.addVxKk x kk) ((s.setV x (addByte (readV s x) kk)).setPc (nextPc s))
  | ldINnn (nnn : Addr12) : Effect s (.ldINnn nnn) ((s.setI (zext16 nnn)).setPc (nextPc s))
  | drw (x y : RegIx) (n : Fin 16) (t : State) :
      Flipped s t (spriteFlip s (readV s x).toNat (readV s y).toNat n 8) → DrawFits s x y n →
      Effect s (.drwVxVyN x y n)
        ((t.setV 15 (collisionByte (spriteHit s (readV s x).toNat (readV s y).toNat n))).setPc (nextPc s))
  | drwCut (x y : RegIx) (n : Fin 16) (t : State) :
      Flipped s t (spriteFlip s (readV s x).toNat (readV s y).toNat
        (drawnRows s (readV s x).toNat (readV s y).toNat n) (drawnWidth (readV s x).toNat)) → ¬DrawFits s x y n →
      Effect s (.drwVxVyN x y n) (takeError .addressOutOfRange t)
  | ldFVx (x : RegIx) : Effect s (.ldFVx x) ((s.setI (glyphAddress (readV s x))).setPc (nextPc s))
  | ldBVx (x : RegIx) : s.i.toNat ≤ 4093 → Effect s (.ldBVx x) ((s.setMem (digitsStored s x)).setPc (nextPc s))
  | ldBVxCut (x : RegIx) (m : Memory) : 4093 < s.i.toNat →
      ((s.i.toNat = 4094 ∧
          m = (s.mem.setCell (effAddr s 0) (hundreds (readV s x))).setCell (effAddr s 1) (tens (readV s x))) ∨
        (s.i.toNat = 4095 ∧ m = s.mem.setCell (effAddr s 0) (hundreds (readV s x))) ∨
        (4096 ≤ s.i.toNat ∧ m = s.mem)) →
      Effect s (.ldBVx x) (takeError .addressOutOfRange (s.setMem m))
  | ldVxI (x : RegIx) (t : State) : OnlyV s t → s.i.toNat + x.val < 4096 →
      (∀ j : RegIx, readV t j = if j ≤ x then byteAt s (effAddr s j) else readV s j) →
      Effect s (.ldVxI x) (t.setPc (nextPc s))
  | ldVxICut (x : RegIx) (t : State) : OnlyV s t → ¬s.i.toNat + x.val < 4096 →
      (∀ j : RegIx, readV t j = if effAddr s j < 4096 then byteAt s (effAddr s j) else readV s j) →
      Effect s (.ldVxI x) (takeError .addressOutOfRange t)

/-- Executing an instruction does one of these and nothing else. -/
theorem exec_effect {s t : State} {i : Instr} (h : exec i s = .next t) : Effect s i t := by
  cases i with
  | ret =>
    rcases List.eq_nil_or_concat s.stk with hs | ⟨l, w, hs⟩
    · rw [exec_ret_of_nil hs] at h; cases h; exact .retEmpty hs
    · rw [List.concat_eq_append] at hs
      rw [exec_ret_of_append hs] at h; cases h; exact .ret _ _ hs
  | call nnn =>
    by_cases hs : s.stk.length < 16
    · rw [exec_call_of_lt nnn hs] at h; cases h; exact .call _ hs
    · rw [exec_call_of_ge nnn (by omega)] at h; cases h; exact .callFull _ (by omega)
  | ldVxKk x kk => rw [exec_ldVxKk] at h; cases h; exact .ldVxKk ..
  | addVxKk x kk => rw [exec_addVxKk] at h; cases h; exact .addVxKk ..
  | ldINnn nnn => rw [exec_ldINnn] at h; cases h; exact .ldINnn ..
  | drwVxVyN x y n =>
    rcases exec_drwVxVyN_cases x y n s with ⟨u, he, hf, hb⟩ | ⟨u, he, hf, h0, hb⟩
    · rw [he] at h; cases h; exact .drw _ _ _ _ hf (drawFits_iff.mpr hb)
    · rw [he] at h; cases h; exact .drwCut _ _ _ _ hf fun hh => hb (drawFits_iff.mp hh h0)
  | ldFVx x => rw [exec_ldFVx] at h; cases h; exact .ldFVx ..
  | ldBVx x =>
    by_cases hs : s.i.toNat ≤ 4093
    · rw [exec_ldBVx_of_le x hs] at h; cases h; exact .ldBVx _ hs
    · obtain ⟨m, he, hm⟩ := exec_ldBVx_of_gt x (s := s) (by omega)
      rw [he] at h; cases h; exact .ldBVxCut _ _ (by omega) hm
  | ldVxI x =>
    rcases exec_ldVxI_cases x s with ⟨u, he, ht, hb, hv⟩ | ⟨u, he, ht, hb, hv⟩
    · rw [he] at h; cases h; exact .ldVxI _ _ ht hb hv
    · rw [he] at h; cases h; exact .ldVxICut _ _ ht hb hv

/-- What a step can come to. -/
inductive StepEffect (s : State) : State → Prop where
  | halted : s.halt = true → StepEffect s s
  | noFetch : s.halt = false → 4096 ≤ s.pc.toNat + 1 → StepEffect s (takeError .addressOutOfRange s)
  | undefined : s.halt = false → s.pc.toNat + 1 < 4096 → decodeWord (wordAt s s.pc.toNat) = none →
      StepEffect s (takeError (.unimplementedOpcode (wordAt s s.pc.toNat)) s)
  | ran (i : Instr) (t : State) : Executes s i → Effect s i t → StepEffect s t

/-- A step does one of these and nothing else. -/
theorem step_effect {s t : State} (h : step s = .next t) : StepEffect s t := by
  rcases step_cases s with ⟨hh, he⟩ | ⟨hh, hp, he⟩ | ⟨hh, hp, hd, he⟩ | ⟨i, hh, hp, hd, he⟩
  · rw [he] at h; cases h; exact .halted hh
  · rw [he] at h; cases h; exact .noFetch hh hp
  · rw [he] at h; cases h; exact .undefined hh hp hd
  · rw [he] at h; exact .ran i t ⟨hh, hp, hd⟩ (exec_effect h)

theorem stepState_of_step {s t : State} (h : step s = .next t) : stepState s = t := by
  simp [stepState, h]

/-! ## Runs -/

theorem runFor_add (m n : Nat) (s : State) : runFor (m + n) s = runFor n (runFor m s) := by
  induction m generalizing s with
  | zero => simp [runFor]
  | succ m ih => rw [Nat.succ_add, runFor, ih, runFor]

theorem runFor_succ (n : Nat) (s : State) : runFor (n + 1) s = stepState (runFor n s) := by
  rw [runFor_add]; rfl

/-! ## Numbers -/

theorem zext16_toNat (nnn : Addr12) : (zext16 nnn).toNat = nnn.toNat := by
  have := nnn.isLt
  rw [zext16, BitVec.toNat_setWidth, Nat.mod_eq_of_lt (by omega)]

/-- Inside a fetched instruction the next address does not wrap (R13). -/
theorem nextPc_of_executes {s : State} {i : Instr} (h : Executes s i) : (nextPc s).toNat = s.pc.toNat + 2 := by
  have hp : s.pc.toNat + 1 < 4096 := h.2.1
  rw [nextPc_toNat, Nat.mod_eq_of_lt (by omega)]

end Sys2Proof.Machine
end

