-- ==== Sys2Proof/Laws/PerInstr.lean ====
section
/-! SUPPORT. What holds of every instruction, constructor by constructor (LAWS.json). -/

namespace Sys2Proof.Laws.WellFormedness

/-- The line that writes an instruction passes the check of R59 and reads back as that instruction. -/
def Statement (i : Instr) : Prop := i.wellFormed = true ∧ i.toAsm.read? = some i

theorem of_read {i : Instr} (h : i.toAsm.read? = some i) : Statement i := by
  refine ⟨?_, h⟩
  unfold AsmLine.read? at h
  split at h
  · assumption
  · cases h

theorem ret : Statement .ret := of_read (by decide)

theorem call (nnn : Addr12) : Statement (.call nnn) :=
  of_read (by simp [Instr.toAsm, AsmLine.read?, AsmLine.wellFormed, nnn.isLt])

theorem ldVxKk (x : RegIx) (kk : Byte) : Statement (.ldVxKk x kk) :=
  of_read (by simp [Instr.toAsm, AsmLine.read?, AsmLine.wellFormed, kk.isLt])

theorem addVxKk (x : RegIx) (kk : Byte) : Statement (.addVxKk x kk) :=
  of_read (by simp [Instr.toAsm, AsmLine.read?, AsmLine.wellFormed, kk.isLt])

theorem ldINnn (nnn : Addr12) : Statement (.ldINnn nnn) :=
  of_read (by simp [Instr.toAsm, AsmLine.read?, AsmLine.wellFormed, nnn.isLt])

theorem drwVxVyN (x y : RegIx) (n : Fin 16) : Statement (.drwVxVyN x y n) :=
  of_read (by simp [Instr.toAsm, AsmLine.read?, AsmLine.wellFormed])

theorem ldFVx (x : RegIx) : Statement (.ldFVx x) :=
  of_read (by simp [Instr.toAsm, AsmLine.read?, AsmLine.wellFormed])

theorem ldBVx (x : RegIx) : Statement (.ldBVx x) :=
  of_read (by simp [Instr.toAsm, AsmLine.read?, AsmLine.wellFormed])

theorem ldVxI (x : RegIx) : Statement (.ldVxI x) :=
  of_read (by simp [Instr.toAsm, AsmLine.read?, AsmLine.wellFormed])

end Sys2Proof.Laws.WellFormedness
end

