-- ==== Sys2Proof/Tests/Slice0.lean ====
section
/-! SUPPORT. The model's own tests. Expected results are the spec's: the bit patterns of 30_encoding.md R54, the examples
of R59, the vectors of 95_test_vectors.md (named in each comment). Last, the witnesses that the hypotheses of the
statements can be met. -/

namespace Sys2Proof.Tests

open Sys2Proof.Machine

/-! ## Well-formedness: an ill-formed line for each check (R59) -/

theorem test_wf_accepts : (AsmLine.mk .DRW [.reg 15, .reg 0, .imm 15]).wellFormed = true := by decide
theorem test_wf_call_immediate : (AsmLine.mk .CALL [.imm 4096]).wellFormed = false := by decide
theorem test_wf_ld_register : (AsmLine.mk .LD [.reg 16, .imm 0]).wellFormed = false := by decide
theorem test_wf_ld_immediate : (AsmLine.mk .LD [.reg 0, .imm 256]).wellFormed = false := by decide
theorem test_wf_add_register : (AsmLine.mk .ADD [.reg 16, .imm 0]).wellFormed = false := by decide
theorem test_wf_add_immediate : (AsmLine.mk .ADD [.reg 0, .imm 256]).wellFormed = false := by decide
theorem test_wf_index_immediate : (AsmLine.mk .LD [.index, .imm 4096]).wellFormed = false := by decide
theorem test_wf_drw_x : (AsmLine.mk .DRW [.reg 16, .reg 0, .imm 0]).wellFormed = false := by decide
theorem test_wf_drw_y : (AsmLine.mk .DRW [.reg 0, .reg 16, .imm 0]).wellFormed = false := by decide
theorem test_wf_drw_n : (AsmLine.mk .DRW [.reg 0, .reg 0, .imm 16]).wellFormed = false := by decide
theorem test_wf_glyph_register : (AsmLine.mk .LD [.glyph, .reg 16]).wellFormed = false := by decide
theorem test_wf_bcd_register : (AsmLine.mk .LD [.bcd, .reg 16]).wellFormed = false := by decide
theorem test_wf_load_register : (AsmLine.mk .LD [.reg 16, .memIndex]).wellFormed = false := by decide
theorem test_wf_shape : (AsmLine.mk .RET [.imm 0]).wellFormed = false := by decide

/-! ## Decoding: one word of each row, its bits written from the pattern column of R54 -/

theorem test_decode_ret : decodeWord 0b0000000011101110 = some .ret := by decide
theorem test_decode_call : decodeWord 0b0010111111111111 = some (.call 0xFFF) := by decide
theorem test_decode_ldVxKk : decodeWord 0b0110101001110111 = some (.ldVxKk 10 0x77) := by decide
theorem test_decode_addVxKk : decodeWord 0b0111111111111111 = some (.addVxKk 15 0xFF) := by decide
theorem test_decode_ldINnn : decodeWord 0b1010001000010000 = some (.ldINnn 0x210) := by decide
theorem test_decode_drwVxVyN : decodeWord 0b1101000000010010 = some (.drwVxVyN 0 1 2) := by decide
theorem test_decode_ldFVx : decodeWord 0b1111001100101001 = some (.ldFVx 3) := by decide
theorem test_decode_ldBVx : decodeWord 0b1111101000110011 = some (.ldBVx 10) := by decide
theorem test_decode_ldVxI : decodeWord 0b1111001001100101 = some (.ldVxI 2) := by decide

/-- T-ENC-2 to T-ENC-12: undefined words. -/
theorem test_decode_rejects :
    ([0x0000, 0x00E0, 0x1200, 0x3000, 0x01EE, 0x0FEE, 0x8120, 0xE09E, 0xF055, 0xF31E, 0xF066, 0xF028, 0xF02A, 0xF032,
      0xF034, 0xF064] : List Word).all (fun op => (decodeWord op).isNone) = true := by decide

/-- T-ENC-1: high byte first; read the other way round the word is undefined. -/
theorem test_decode_bytes : decode [0x60, 0x05, 0x99] = .ok (.ldVxKk 0 5, [0x99]) := by rfl
theorem test_decode_bytes_swapped : decode [0x05, 0x60] = .error (.unimplementedOpcode 0x0560) := by rfl
theorem test_decode_truncated : decode [0x60] = .error .truncated := by rfl

/-- T-ENC-20 and R59's table. -/
theorem test_encode : encodeWord (.addVxKk 15 0xFF) = 0x7FFF ∧ encodeWord (.drwVxVyN 15 15 15) = 0xDFFF ∧
    encodeWord (.ldVxI 15) = 0xFF65 ∧ encode (.call 0x20A) = [0x22, 0x0A] := by decide

theorem test_decodeTableWord : decodeTableWord 16 0xF329 = some (.ldFVx 3) ∧ decodeTableWord 16 0x01EE = none := by decide

/-! ## The assembler notation (R59) -/

/-- The source's example, and the spec's table of examples with a data line. -/
theorem test_assemble_source : assemble? "LD V0,5; ADD V0,3; LD I,0x210".toList = some [0x60, 0x05, 0x70, 0x03, 0xA2, 0x10] := by
  decide
theorem test_assemble_table : assemble? "CALL 0x20A\nRET\nDRW V0,V1,2\nLD F,V3\nLD B,VA\nLD V2,[I]\nDB 0xC3,255".toList =
    some [0x22, 0x0A, 0x00, 0xEE, 0xD0, 0x12, 0xF3, 0x29, 0xFA, 0x33, 0xF2, 0x65, 0xC3, 0xFF] := by decide
theorem test_assemble_rejects : (["LD V0,256", "LD VG,1", "CALL", "ret", "LD  V0,1", "LD V0, 1", "DRW V0,V1,16", "DB 256",
    "NOP", "LD F,0"].all fun t => (assemble? t.toList).isNone) = true := by decide

/-! ## One step each -/

/-- The reset state with a word at `pc`. -/
def withWord (op : Word) (s : State := State.reset) : State := s.withFetchWord 16 op.toNat

/-- The state after one step. -/
def after (op : Word) (s : State := State.reset) : State := stepState (withWord op s)

/-- A test state: `V[0]`, `V[1]`, `V[7]`, `V[15]`, `I`, memory cells, call stack. -/
def cpu (v0 v1 v7 v15 : Byte) (i : Word) (mem : Memory := []) (stk : List Word := []) : State :=
  { (((State.reset.setV 0 v0).setV 1 v1).setV 7 v7).setV 15 v15 with i := i, mem := mem, stk := stk }

/-- The columns 0 to 63 that are on in a row. -/
def onInRow (s : State) (row : Nat) : List Nat := (List.range 64).filter fun c => pixelAt s c row

/-- T-CT-10, T-CT-4. -/
theorem test_ret : let t := after 0x00EE (cpu 0 0 0 0 0 [] [0x204, 0x250])
    t.pc = 0x250 ∧ t.stk = [0x204] ∧ t.halt = false := by decide
theorem test_ret_empty : let t := after 0x00EE
    t.halt = true ∧ t.err.code = 3 ∧ t.errInfo = 0 ∧ t.pc = 0x200 ∧ t.stk = [] := by decide

/-- T-CT-6, T-CT-5. -/
theorem test_call : let t := after 0x2300 (cpu 0 0 0 0 0 [] (List.replicate 15 0x202))
    t.pc = 0x300 ∧ t.stk = List.replicate 16 0x202 ∧ t.halt = false := by decide
theorem test_call_full : let t := after 0x2300 (cpu 0 0 0 0 0 [] (List.replicate 16 0x202))
    t.halt = true ∧ t.err.code = 4 ∧ t.pc = 0x200 ∧ t.stk = List.replicate 16 0x202 := by decide

/-- T-RI-2, T-RI-3. -/
theorem test_ldVxKk_vf : let t := after 0x6FFF (cpu 0 0 0 1 0)
    readV t 15 = 0xFF ∧ t.pc = 0x202 := by decide
theorem test_ldVxKk_zero : let t := after 0x6700 (cpu 0 0 0xAA 0 0)
    readV t 7 = 0 ∧ readV t 6 = 0 ∧ t.pc = 0x202 := by decide

/-- T-RI-5, T-RI-8. -/
theorem test_addVxKk_wraps : let t := after 0x7001 (cpu 0xFF 0 0 0 0)
    readV t 0 = 0 ∧ readV t 15 = 0 ∧ t.pc = 0x202 := by decide
theorem test_addVxKk_vf : let t := after 0x7F01 (cpu 0 0 0 0xFF 0)
    readV t 15 = 0 ∧ t.pc = 0x202 := by decide

/-- T-RI-11. -/
theorem test_ldINnn : let t := after 0xAFFF (cpu 0 0 0 0 0x123)
    t.i = 0x0FFF ∧ t.pc = 0x202 ∧ t.halt = false := by decide

/-- T-DRW-2 (with the pixel (9,2) on before), T-DRW-5. -/
theorem test_drw_collision :
    let s := cpu 8 2 0 0x77 0x300 [(0x300, 0xC3), (0x301, 0x81)]
    let t := after 0xD012 (s.setFb (FrameBuffer.setPixel (FrameBuffer.setPixel s.fb 9 2 true) 10 2 true))
    onInRow t 2 = [8, 10, 14, 15] ∧ onInRow t 3 = [8, 15] ∧ readV t 15 = 1 ∧ t.pc = 0x202 := by decide
theorem test_drw_right_edge : let t := after 0xD011 (cpu 57 0 0 0x55 0x300 [(0x300, 0xFF)])
    onInRow t 0 = [57, 58, 59, 60, 61, 62, 63] ∧ t.halt = true ∧ t.err.code = 2 ∧ t.errInfo = 0 ∧ readV t 15 = 0x55 ∧
      t.pc = 0x200 := by decide

/-- T-IX-3 (register 7 in place of 5): not masked, not the field. -/
theorem test_ldFVx : let t := after 0xF729 (cpu 0 0 0xFF 0 0)
    t.i = 0x04FB ∧ t.pc = 0x202 ∧ t.halt = false := by decide

/-- T-IX-8, T-IX-9. -/
theorem test_ldBVx : let t := after 0xF733 (cpu 0 0 255 0 0x300)
    (byteAt t 0x300, byteAt t 0x301, byteAt t 0x302, byteAt t 0x303) = (2, 5, 5, 0) ∧ t.i = 0x300 ∧ t.pc = 0x202 := by
  decide
theorem test_ldBVx_top : let t := after 0xF733 (cpu 0 0 234 0 0xFFE [(0xFFE, 0xEE), (0xFFF, 0xEE)])
    (byteAt t 0xFFE, byteAt t 0xFFF) = (2, 3) ∧ t.halt = true ∧ t.err.code = 2 ∧ t.pc = 0x200 := by decide

/-- T-IX-10 and T-IX-13 (with `V[7]` for `V[3]`). -/
theorem test_ldVxI : let t := after 0xF065 (cpu 0x11 0x22 0 0 0x300 [(0x300, 0xAB), (0x301, 0xCD)])
    readV t 0 = 0xAB ∧ readV t 1 = 0x22 ∧ t.i = 0x300 ∧ t.pc = 0x202 := by decide
theorem test_ldVxI_top : let t := after 0xF765 (cpu 1 2 4 0 0xFFE [(0xFFE, 0xAA), (0xFFF, 0xBB)])
    readV t 0 = 0xAA ∧ readV t 1 = 0xBB ∧ readV t 7 = 4 ∧ t.halt = true ∧ t.err.code = 2 ∧ t.pc = 0x200 := by decide

/-- T-ENC-3. -/
theorem test_undefined_word : let t := after 0x00E0
    t.halt = true ∧ t.err.code = 1 ∧ t.errInfo = 0x00E0 ∧ t.pc = 0x200 := by decide

/-- T-ENC-13: the fetch error comes before any decode, and nothing wraps. -/
theorem test_fetch_at_top : let t := stepState ((cpu 0 0 0 0 0 [(0xFFF, 0x60)]).setPc 0xFFF)
    t.halt = true ∧ t.err.code = 2 ∧ t.pc = 0xFFF := by decide

/-- T-RST-1. -/
theorem test_reset_image : let s := resetWith [0x60, 0x05, 0x70, 0x03, 0xA2, 0x10]
    s.pc = 0x200 ∧ s.mem = [(0x200, 0x60), (0x201, 0x05), (0x202, 0x70), (0x203, 0x03), (0x204, 0xA2), (0x205, 0x10)] ∧
      byteAt s 0x206 = 0 ∧ s.halt = false := by decide

/-! ## Witnesses: concrete states and operands that meet the hypotheses of the statements, each clause at a boundary -/

theorem wit_NoWordSelectsTwoRows : OpRow.ret.selects 0x00EE = true ∧ OpRow.ldVxI.selects 0xFF65 = true := by decide
theorem wit_EncodeOfDecodedIsIdentity : decodeWord 0xD012 = some (.drwVxVyN 0 1 2) := by decide
theorem wit_StepRunsTheDecodedInstruction : let s := (withWord 0x6A77 (State.reset.setPc 0xFFE))
    s.halt = false ∧ s.pc.toNat + 1 < 4096 ∧ (Instr.ldVxKk 10 0x77).wellFormed = true ∧
      decodeWord (joinBytes (byteAt s s.pc.toNat) (byteAt s (s.pc.toNat + 1))) = some (.ldVxKk 10 0x77) := by decide
theorem wit_FetchOutsideMemoryRaises : (State.reset.setPc 0xFFF).halt = false ∧
    0x0FFF ≤ (State.reset.setPc 0xFFF).pc.toNat ∧ 0x0FFF ≤ (State.reset.setPc 0xFFFF).pc.toNat := by decide
theorem wit_UndefinedWordHalts : let s := withWord 0x01EE
    s.halt = false ∧ s.pc.toNat + 1 < 4096 ∧ decodeWord (wordAt s s.pc.toNat) = none := by decide
theorem wit_FamilyFSelectsByLowByte : (fieldTop 0xFF29 = 0xF ∧ fieldKK 0xFF29 = 0x29) ∧
    (fieldTop 0xF033 = 0xF ∧ fieldKK 0xF033 = 0x33) ∧ (fieldTop 0xFF65 = 0xF ∧ fieldKK 0xFF65 = 0x65) ∧
    (let s := withWord 0xF066
     s.halt = false ∧ s.pc.toNat + 1 < 4096 ∧ wordAt s s.pc.toNat = 0xF066 ∧ fieldTop 0xF066 = 0xF ∧
      fieldKK 0xF066 ≠ 0x29 ∧ fieldKK 0xF066 ≠ 0x33 ∧ fieldKK 0xF066 ≠ 0x65) := by decide
theorem wit_HaltedMachineTakesNoStep : (takeError .stackUnderflow State.reset).halt = true := by decide
theorem wit_FetchIsBigEndian : (State.reset.setPc 0xFFE).pc.toNat + 1 < 4096 := by decide
theorem wit_MemReadIsBoundsChecked : (4095 : Nat) < 4096 ∧ (4096 : Nat) ≤ 4096 := by decide
theorem wit_MemWriteChangesOneByte : ((4095 : Nat) < 4096 ∧ (4094 : Nat) ≠ 4095) ∧ (4096 : Nat) ≤ 4096 := by decide
theorem wit_FbXorFlipsOnePixel : ((63 : Nat) < 64 ∧ (31 : Nat) < 32 ∧ ¬((63 : Nat) = 63 ∧ (30 : Nat) = 31)) ∧
    ((64 : Nat) ≤ 64 ∨ (32 : Nat) ≤ 0) ∧ ((64 : Nat) ≤ 0 ∨ (32 : Nat) ≤ 32) := by decide
theorem wit_CanonicalMemoryIsUnique : Memory.wf [(0x200, 0x60), (0xFFF, 1)] ∧
    ∀ a, Memory.cellAt [(0x200, 0x60), (0xFFF, 1)] a = Memory.cellAt [(0x200, 0x60), (0xFFF, 1)] a :=
  ⟨by decide, fun _ => rfl⟩
theorem wit_RetPopsIntoPc : (cpu 0 0 0 0 0 [] [0x204]).stk = [] ++ [0x204] ∧ State.reset.stk = [] := by decide
theorem wit_CallPushesTheNextAddress : (cpu 0 0 0 0 0 [] (List.replicate 15 0x202)).stk.length < 16 ∧
    (cpu 0 0 0 0 0 [] (List.replicate 16 0x202)).stk.length = 16 := by decide
/-- The call at 0x202 and its return of T-CT-3. -/
def callAndReturn : State := (cpu 0 0 0 0 0 [(0x202, 0x22), (0x203, 0x0A), (0x20B, 0xEE)]).setPc 0x202
theorem wit_CallReturnRoundTrip : Executes callAndReturn (.call 0x20A) ∧ callAndReturn.stk.length < 16 ∧
    Executes (runFor 1 callAndReturn) .ret ∧ (runFor 1 callAndReturn).stk.length = callAndReturn.stk.length + 1 ∧
    ∀ m, 1 ≤ m → m < 1 → Executes (runFor m callAndReturn) .ret →
      (runFor m callAndReturn).stk.length ≠ callAndReturn.stk.length + 1 :=
  ⟨⟨by decide, by decide, by decide⟩, by decide, ⟨by decide, by decide, by decide⟩, by decide,
    fun _ h h' => absurd h (Nat.not_le.mpr h')⟩
theorem wit_LoadImmediateWritesVx : (0 : RegIx) ≠ 15 := by decide
theorem wit_StoreDigitsWritesThreeBytes : let s := cpu 0 0 0 0 4093
    s.i.toNat ≤ 4093 ∧ (4092 ≠ effAddr s 0 ∧ 4092 ≠ effAddr s 1 ∧ 4092 ≠ effAddr s 2) := by decide
theorem wit_StoreDigitsCutShort :
    (4093 < (cpu 0 0 0 0 4094).i.toNat ∧ effAddr (cpu 0 0 0 0 4094) 0 < 4096 ∧ effAddr (cpu 0 0 0 0 4094) 1 < 4096 ∧
      4093 ≠ effAddr (cpu 0 0 0 0 4094) 0 ∧ 4093 ≠ effAddr (cpu 0 0 0 0 4094) 1) ∧
    4093 < (cpu 0 0 0 0 4095).i.toNat ∧ effAddr (cpu 0 0 0 0 4095) 0 < 4096 ∧ 4096 ≤ effAddr (cpu 0 0 0 0 4095) 1 := by
  decide
theorem wit_LoadRegistersFromMemory : let s := cpu 0 0 0 0 0xFF0
    s.i.toNat + (15 : RegIx).val ≤ 4095 ∧ (15 : RegIx) ≤ 15 ∧
      (State.reset.i.toNat + (14 : RegIx).val ≤ 4095 ∧ (14 : RegIx) < 15) := by decide
theorem wit_LoadRegistersCutShort : let s := cpu 0 0 0 0 0xFF1
    4095 < s.i.toNat + (15 : RegIx).val ∧ effAddr s 14 ≤ 4095 ∧ 4095 < effAddr s 15 := by decide
theorem wit_DrawFlipsTheSprite : DrawFits (cpu 200 100 0 0 0xFFF) 0 1 0 ∧ DrawFits (cpu 56 17 0 0 0xFF1) 0 1 15 ∧
    (let s := cpu 56 31 0 0 0xFFF [(0xFFF, 0x81)]
     let t := s.setFb (FrameBuffer.setPixel s.fb 63 31 true)
     DrawFits t 0 1 1 ∧ pixelAt t (56 + 7) (31 + 0) = true ∧ (byteAt t (effAddr t 0)).getLsbD (7 - 7) = true) :=
  ⟨.inl rfl, .inr (by decide), .inr (by decide), by decide, by decide⟩
theorem wit_DrawFlipsTheSprite_no_collision : DrawFits (cpu 56 31 0 0 0xFFF) 0 1 1 ∧
    ¬∃ row k, row < (1 : Fin 16).val ∧ k < 8 ∧ pixelAt (cpu 56 31 0 0 0xFFF) (56 + k) (31 + row) = true ∧
      (byteAt (cpu 56 31 0 0 0xFFF) (effAddr (cpu 56 31 0 0 0xFFF) row)).getLsbD (7 - k) = true := by
  refine ⟨.inr (by decide), ?_⟩
  rintro ⟨row, k, hr, hk, hp, -⟩
  have hrow : row = 0 := Nat.lt_one_iff.mp hr
  subst hrow
  have hall : ∀ k < 8, pixelAt (cpu 56 31 0 0 0xFFF) (56 + k) (31 + 0) = false := by decide
  rw [hall k hk] at hp
  exact absurd hp (by decide)
theorem wit_DrawCutShort : ¬DrawFits (cpu 57 0 0 0 0x300) 0 1 1 ∧ ¬DrawFits (cpu 0 31 0 0 0x300) 0 1 2 ∧
    ¬DrawFits (cpu 0 0 0 0 0xFFF) 0 1 2 := by
  unfold DrawFits; decide
theorem wit_DrawTwiceRestores : ∃ s₁ t, DrawFits (cpu 8 2 0 0 0x300 [(0x300, 0xC3)]) 0 1 1 ∧
    exec (.drwVxVyN 0 1 1) (cpu 8 2 0 0 0x300 [(0x300, 0xC3)]) = .next s₁ ∧
    s₁.i = (cpu 8 2 0 0 0x300 [(0x300, 0xC3)]).i ∧ SameMem (cpu 8 2 0 0 0x300 [(0x300, 0xC3)]) s₁ ∧
    readV s₁ 0 = readV (cpu 8 2 0 0 0x300 [(0x300, 0xC3)]) 0 ∧ readV s₁ 1 = readV (cpu 8 2 0 0 0x300 [(0x300, 0xC3)]) 1 ∧
    exec (.drwVxVyN 0 1 1) s₁ = .next t :=
  ⟨_, _, .inr (by decide), rfl, by decide, fun _ => rfl, by decide, by decide, rfl⟩
/-- The hypotheses `Inv s` and `step s = next t` of the invariant statements. -/
theorem wit_StepKeepsTheInvariant : Inv State.reset ∧ step State.reset = .next (stepState State.reset) :=
  ⟨⟨by decide, by decide, by decide, by decide, by simp [State.reset], by simp [LatchOk, State.reset]⟩, rfl⟩
theorem wit_OnlyCallAndRetTouchTheStack :
    (step (withWord 0x2300) = .next (after 0x2300) ∧ (after 0x2300).stk ≠ (withWord 0x2300).stk) ∧
    (step (withWord 0x00EE (cpu 0 0 0 0 0 [] [0x204])) = .next (after 0x00EE (cpu 0 0 0 0 0 [] [0x204])) ∧
      (after 0x00EE (cpu 0 0 0 0 0 [] [0x204])).stk = []) := ⟨⟨rfl, by decide⟩, rfl, by decide⟩
theorem wit_OnlyIndexLoadsWriteI : step (withWord 0xAFFF) = .next (after 0xAFFF) ∧ (after 0xAFFF).i ≠ (withWord 0xAFFF).i ∧
    step (withWord 0xF729 (cpu 0 0 255 0 0)) = .next (after 0xF729 (cpu 0 0 255 0 0)) ∧
    (after 0xF729 (cpu 0 0 255 0 0)).i ≠ 0 := ⟨rfl, by decide, rfl, by decide⟩
theorem wit_OnlyStoreDigitsWritesMemory : step (withWord 0xF733 (cpu 0 0 255 0 0x300)) =
      .next (after 0xF733 (cpu 0 0 255 0 0x300)) ∧
    byteAt (after 0xF733 (cpu 0 0 255 0 0x300)) 0x302 ≠ byteAt (withWord 0xF733 (cpu 0 0 255 0 0x300)) 0x302 :=
  ⟨rfl, by decide⟩
theorem wit_OnlyDrawChangesPixels : step (withWord 0xD011 (cpu 57 0 0 0 0x300 [(0x300, 0xFF)])) =
      .next (after 0xD011 (cpu 57 0 0 0 0x300 [(0x300, 0xFF)])) ∧
    pixelAt (after 0xD011 (cpu 57 0 0 0 0x300 [(0x300, 0xFF)])) 63 0 ≠
      pixelAt (withWord 0xD011 (cpu 57 0 0 0 0x300 [(0x300, 0xFF)])) 63 0 := ⟨rfl, by decide⟩
theorem wit_RegisterWriters : step (withWord 0x6FFF) = .next (after 0x6FFF) ∧
    readV (after 0x6FFF) 15 ≠ readV (withWord 0x6FFF) 15 := ⟨rfl, by decide⟩
theorem wit_PcUpdateTable_ret : Executes (withWord 0x00EE (cpu 0 0 0 0 0 [] [0x1000])) .ret ∧
    step (withWord 0x00EE (cpu 0 0 0 0 0 [] [0x1000])) = .next (after 0x00EE (cpu 0 0 0 0 0 [] [0x1000])) ∧
    (after 0x00EE (cpu 0 0 0 0 0 [] [0x1000])).halt = false := ⟨⟨by decide, by decide, by decide⟩, rfl, by decide⟩
theorem wit_PcUpdateTable_call : Executes (withWord 0x2FFF) (.call 0xFFF) ∧
    step (withWord 0x2FFF) = .next (after 0x2FFF) ∧ (after 0x2FFF).halt = false :=
  ⟨⟨by decide, by decide, by decide⟩, rfl, by decide⟩
/-- The other seven, each after a step that raises nothing, from `pc = 0x0FFE`. -/
theorem wit_PcUpdateTable_advance :
    ([(0x60FF, .ldVxKk 0 0xFF), (0x7001, .addVxKk 0 1), (0xAFFF, .ldINnn 0xFFF), (0xD010, .drwVxVyN 0 1 0),
      (0xF029, .ldFVx 0), (0xF033, .ldBVx 0), (0xF165, .ldVxI 1)] : List (Word × Instr)).all
      (fun c => let s := withWord c.1 ((cpu 0 0 0 0 0x300).setPc 0xFFE)
        !s.halt && decide (s.pc.toNat + 1 < 4096) && (decodeWord (wordAt s s.pc.toNat) == some c.2) &&
          !(stepState s).halt) = true := by decide
/-- A running machine whose step raises, for each kind of error. -/
theorem wit_ErrorKindNamesTheCause :
    (State.reset.halt = false ∧ (stepState State.reset).err = .unimplementedOpcode) ∧
    ((withWord 0x00EE).halt = false ∧ (after 0x00EE).halt = true ∧ (after 0x00EE).err = .stackUnderflow) ∧
    (after 0x2300 (cpu 0 0 0 0 0 [] (List.replicate 16 0))).err = .stackOverflow ∧
    (after 0xF165 (cpu 0 0 0 0 0xFFF)).err = .addressOutOfRange ∧ (after 0xF033 (cpu 0 0 0 0 0xFFE)).err = .addressOutOfRange ∧
    (after 0xD011 (cpu 57 0 0 0 0x300)).err = .addressOutOfRange ∧ step State.reset = .next (stepState State.reset) :=
  ⟨by decide, by decide, by decide, by decide, by decide, by decide, rfl⟩
theorem wit_ErrorLeavesPcAtTheInstruction : (withWord 0xF733 (cpu 0 0 255 0 0xFFF)).halt = false ∧
    step (withWord 0xF733 (cpu 0 0 255 0 0xFFF)) = .next (after 0xF733 (cpu 0 0 255 0 0xFFF)) ∧
    (after 0xF733 (cpu 0 0 255 0 0xFFF)).halt = true := ⟨by decide, rfl, by decide⟩
/-- A running machine whose step halts, and one whose step does not. -/
theorem wit_StepHaltsExactlyOnTheListedErrors : (withWord 0xF165 (cpu 0 0 0 0 0xFFF)).halt = false ∧
    step (withWord 0xF165 (cpu 0 0 0 0 0xFFF)) = .next (after 0xF165 (cpu 0 0 0 0 0xFFF)) ∧
    (after 0xF165 (cpu 0 0 0 0 0xFFF)).halt = true ∧
    step (withWord 0xF165 (cpu 0 0 0 0 0xFFE)) = .next (after 0xF165 (cpu 0 0 0 0 0xFFE)) ∧
    (after 0xF165 (cpu 0 0 0 0 0xFFE)).halt = false := ⟨by decide, rfl, by decide, rfl, by decide⟩
theorem wit_StatusShowsTheLatch : Inv State.reset ∧ status State.reset = ⟨0, 0, 0⟩ ∧ status (after 0x00E0) = ⟨1, 1, 0x00E0⟩ :=
  ⟨wit_StepKeepsTheInvariant.1, by decide, by decide⟩
/-- The digits 2, 5, 5 of 255 stored over the next word's low byte only (`I` = 0x203), and over both (`I` = 0x200). -/
theorem wit_StoredDigitsAreFetchedNext :
    (let s := withWord 0xF733 (cpu 0 0 255 0 0x203)
     Executes s (.ldBVx 7) ∧ s.i.toNat ≤ 4093 ∧ s.pc.toNat + 3 < 4096 ∧ step s = .next (stepState s) ∧
      (effAddr s 0 = s.pc.toNat + 3 ∧ ∀ k < 3, effAddr s k ≠ s.pc.toNat + 2)) ∧
    (let s := withWord 0xF733 (cpu 0 0 255 0 0x200)
     Executes s (.ldBVx 7) ∧ effAddr s 2 = s.pc.toNat + 2 ∧ ∀ k < 3, effAddr s k ≠ s.pc.toNat + 3) :=
  ⟨⟨⟨by decide, by decide, by decide⟩, by decide, by decide, rfl, by decide⟩,
    ⟨by decide, by decide, by decide⟩, by decide⟩
theorem wit_PixelsReachOnlyTheCollisionFlag : let s := withWord 0x6FFF
    step s = .next (stepState s) ∧
      step (s.setFb (FrameBuffer.setPixel s.fb 0 0 true)) = .next (stepState (s.setFb (FrameBuffer.setPixel s.fb 0 0 true))) ∧
      (0 : RegIx) ≠ 15 ∧ ¬∃ x y n, Executes s (.drwVxVyN x y n) := by
  refine ⟨rfl, rfl, by decide, ?_⟩
  rintro ⟨x, y, n, -, -, h⟩
  have h' : decodeWord (wordAt (withWord 0x6FFF) (withWord 0x6FFF).pc.toNat) = some (.ldVxKk 15 0xFF) := by decide
  rw [h'] at h
  cases h
theorem wit_SavedAddressesReachOnlyRet : let s := withWord 0x2300 (cpu 0 0 0 0 0 [] [0x204])
    ([0x250] : List Word).length = s.stk.length ∧ ¬Executes s .ret ∧ step s = .next (stepState s) ∧
      step (s.setStk [0x250]) = .next (stepState (s.setStk [0x250])) := by
  refine ⟨by decide, ?_, rfl, rfl⟩
  rintro ⟨-, -, h⟩
  exact absurd h (by decide)
theorem wit_ImageIsLoadedAtReset : (List.replicate 3584 (0x60 : Byte)).length ≤ 3584 ∧
    3583 < (List.replicate 3584 (0x60 : Byte)).length ∧ (0x1FF < 0x200 ∨ 0x200 + 3584 ≤ 0x1FF) := by
  rw [List.length_replicate]
  exact ⟨Nat.le_refl _, by decide, .inl (by decide)⟩
theorem wit_OverlongImageNeverRuns : 3584 < (List.replicate 3585 (0x60 : Byte)).length := by
  rw [List.length_replicate]
  decide
theorem wit_GlyphTableIsPreloaded : (79 : Nat) < 80 := by decide
theorem wit_ResetValues : (80 : Nat) ≤ 80 := by decide

end Sys2Proof.Tests
end

section
/-! The proofs of the memory statements (spec 20_memory.md R31, R32, R34), from the laws of `memRead`, `memWrite` and
`joinBytes`. -/

namespace Sys2Proof.Machine

/-- Taking an error latches it (R111). -/
theorem latched_takeError (e : MachineError) (s : State) : Latched e (takeError e s) := ⟨rfl, rfl, rfl⟩

/-- Bits 15:8 of a joined word are its first byte (R34). -/
theorem hiByte_joinBytes (hi lo : Byte) : hiByte (joinBytes hi lo) = hi :=
  BitVec.extractLsb'_append_eq_left

/-- Bits 7:0 of a joined word are its second byte (R34). -/
theorem loByte_joinBytes (hi lo : Byte) : loByte (joinBytes hi lo) = lo :=
  BitVec.extractLsb'_append_eq_right

/-- With both bytes inside memory, fetch answers the word at `pc` and leaves the state as it is (R53). -/
theorem fetch_of_lt {s : State} (h : s.pc.toNat + 1 < 4096) : fetch s = .ok (wordAt s s.pc.toNat) s := by
  rw [fetch, memRead_of_lt (by omega), Res.ok_andThen, memRead_of_lt h, Res.ok_andThen, wordAt]

/-- Settles O15: the fetched word joins the two bytes at `pc`, the first one on top. -/
theorem fetchIsBigEndian : Obligations.FetchIsBigEndian := by
  intro s h
  exact ⟨wordAt s s.pc.toNat, fetch_of_lt h, hiByte_joinBytes _ _, loByte_joinBytes _ _, joinBytes_toNat _ _⟩

/-- Settles O16: one law of `memRead` on each side of the bound. -/
theorem memReadIsBoundsChecked : Obligations.MemReadIsBoundsChecked := by
  refine ⟨fun a s h => memRead_of_lt h, fun a s h => ?_⟩
  exact ⟨takeError .addressOutOfRange s, memRead_of_ge h, latched_takeError _ _, byteAt_takeError _ _⟩

/-- Replacing the memory touches no other item of the state (R18, R32). -/
theorem setMem_frame (s : State) (m : Memory) :
    SameV s (s.setMem m) ∧ (s.setMem m).i = s.i ∧ (s.setMem m).pc = s.pc ∧ (s.setMem m).stk = s.stk ∧
      SameFb s (s.setMem m) ∧ SameLatch s (s.setMem m) :=
  ⟨readV_setMem s m, rfl, rfl, rfl, pixelAt_setMem s m, rfl, rfl, rfl⟩

/-- Settles O17: inside the bounds the state after is the state before with one cell written; outside them it is the
state before with the error latched. -/
theorem memWriteChangesOneByte : Obligations.MemWriteChangesOneByte := by
  refine ⟨fun a w s h => ?_, fun a w s h => ?_⟩
  · refine ⟨s.setMem (s.mem.setCell a w), memWrite_of_lt h, ?_, fun b hb => ?_, setMem_frame s _⟩
    · rw [byteAt_setMem_setCell, if_pos rfl]
    · rw [byteAt_setMem_setCell, if_neg hb]
  · exact ⟨takeError .addressOutOfRange s, memWrite_of_ge h, latched_takeError _ _, byteAt_takeError _ _⟩

end Sys2Proof.Machine
end

section
/-! The proofs of the encoding statements (spec 30_encoding.md R51, R54, R55, R57): a word as the concatenation of its
fields, what each row of the opcode map selects in terms of them, and the decoder as the choice of the one row
selected. -/

namespace Sys2Proof

/-! ## Fields (R51) -/

/-- A field is its part of the word masked and shifted down; `hm` says that the mask covers exactly the field. -/
theorem extractLsb'_toNat_eq_and_shiftRight (op mask : Word) (start len : Nat)
    (hm : mask.toNat >>> start = 2 ^ len - 1) :
    (op.extractLsb' start len).toNat = ((op &&& mask) >>> start).toNat := by
  rw [BitVec.extractLsb'_toNat, BitVec.toNat_ushiftRight, BitVec.toNat_and, Nat.shiftRight_and_distrib, hm,
    Nat.and_two_pow_sub_one_eq_mod]

/-- A word is its top nibble followed by `nnn` (R52, format `NNN`). -/
theorem fieldTop_append_fieldNNN (op : Word) : fieldTop op ++ fieldNNN op = op :=
  BitVec.extractLsb'_append_extractLsb' (w := 4) (len := 12)

/-- `nnn = {x, kk}` (R51). -/
theorem fieldNNN_eq_append (op : Word) : fieldNNN op = BitVec.ofFin (fieldX op) ++ fieldKK op :=
  (BitVec.extractLsb'_append_extractLsb'_eq_extractLsb' (start₁ := 0) (len₁ := 8) rfl).symm

/-- `kk = {y, n}` (R51). -/
theorem fieldKK_eq_append (op : Word) :
    fieldKK op = BitVec.ofFin (w := 4) (fieldY op) ++ BitVec.ofFin (w := 4) (fieldN op) :=
  (BitVec.extractLsb'_append_extractLsb'_eq_extractLsb' (start₁ := 0) (len₁ := 4) rfl).symm

/-- A concatenation as a number. -/
theorem toNat_append_eq_mul_add {m n : Nat} (a : BitVec m) (b : BitVec n) :
    (a ++ b).toNat = a.toNat * 2 ^ n + b.toNat := by
  rw [BitVec.toNat_append, ← Nat.shiftLeft_add_eq_or_of_lt b.isLt, Nat.shiftLeft_eq]

/-- Settles O1: each mask covers its field, and the two overlaps are concatenations. -/
theorem fieldsAreMaskedAndShifted : Obligations.FieldsAreMaskedAndShifted := by
  intro op
  have hnnn : (fieldNNN op).toNat = (fieldX op).val * 256 + (fieldKK op).toNat := by
    rw [fieldNNN_eq_append, toNat_append_eq_mul_add]; rfl
  have hkk : (fieldKK op).toNat = (fieldY op).val * 16 + (fieldN op).val := by
    rw [fieldKK_eq_append, toNat_append_eq_mul_add]; rfl
  exact ⟨extractLsb'_toNat_eq_and_shiftRight op 0xF000 12 4 rfl,
    extractLsb'_toNat_eq_and_shiftRight op 0x0F00 8 4 rfl,
    extractLsb'_toNat_eq_and_shiftRight op 0x00F0 4 4 rfl,
    extractLsb'_toNat_eq_and_shiftRight op 0x000F 0 4 rfl,
    extractLsb'_toNat_eq_and_shiftRight op 0x00FF 0 8 rfl,
    extractLsb'_toNat_eq_and_shiftRight op 0x0FFF 0 12 rfl, hnnn, hkk⟩

/-! ## What a row selects (R54) -/

/-- The mask 0xF000 keeps the top nibble. -/
theorem and_topMask (op : Word) : op &&& 0xF000 = fieldTop op ++ 0#12 := by
  calc op &&& 0xF000 = (fieldTop op ++ fieldNNN op) &&& (BitVec.allOnes 4 ++ 0#12) := by
        rw [fieldTop_append_fieldNNN]; rfl
    _ = fieldTop op ++ 0#12 := by rw [BitVec.and_append, BitVec.and_allOnes, BitVec.and_zero]

/-- The mask 0xF0FF keeps the top nibble and the low byte. -/
theorem and_topLowMask (op : Word) : op &&& 0xF0FF = fieldTop op ++ (0#4 ++ fieldKK op) := by
  calc op &&& 0xF0FF
      = (fieldTop op ++ (BitVec.ofFin (fieldX op) ++ fieldKK op)) &&&
          (BitVec.allOnes 4 ++ (0#4 ++ BitVec.allOnes 8)) := by
        rw [← fieldNNN_eq_append, fieldTop_append_fieldNNN]; rfl
    _ = fieldTop op ++ (0#4 ++ fieldKK op) := by
        rw [BitVec.and_append, BitVec.and_append, BitVec.and_allOnes, BitVec.and_allOnes, BitVec.and_zero]

/-- Concatenations of parts of the same widths are equal part by part. -/
theorem append_eq_append_iff {m n : Nat} {a c : BitVec m} {b d : BitVec n} : a ++ b = c ++ d ↔ a = c ∧ b = d := by
  refine ⟨fun h => ?_, fun ⟨hac, hbd⟩ => by rw [hac, hbd]⟩
  have hleft : a = c := by
    simpa only [BitVec.extractLsb'_append_eq_left] using congrArg (BitVec.extractLsb' n m) h
  have hright : b = d := by
    simpa only [BitVec.extractLsb'_append_eq_right] using congrArg (BitVec.extractLsb' 0 n) h
  exact ⟨hleft, hright⟩

theorem OpRow.selects_iff {r : OpRow} {op : Word} : r.selects op = true ↔ op &&& r.mask = r.pattern := beq_iff_eq

/-- A row with the mask 0xF000 selects the words of one top nibble. -/
theorem OpRow.selects_iff_fieldTop {r : OpRow} {t : BitVec 4} (op : Word) (hm : r.mask = 0xF000)
    (hp : r.pattern = t ++ 0#12) : r.selects op = true ↔ fieldTop op = t := by
  rw [OpRow.selects_iff, hm, hp, and_topMask, BitVec.append_left_inj]

/-- A row with the mask 0xF0FF selects the words of one top nibble and one low byte. -/
theorem OpRow.selects_iff_fieldTop_fieldKK {r : OpRow} {t : BitVec 4} {k : Byte} (op : Word) (hm : r.mask = 0xF0FF)
    (hp : r.pattern = t ++ (0#4 ++ k)) : r.selects op = true ↔ fieldTop op = t ∧ fieldKK op = k := by
  rw [OpRow.selects_iff, hm, hp, and_topLowMask, append_eq_append_iff, BitVec.append_right_inj]

theorem OpRow.ret_selects (op : Word) : OpRow.ret.selects op = true ↔ op = 0x00EE := by
  rw [OpRow.selects_iff, show OpRow.ret.mask = BitVec.allOnes 16 from rfl, BitVec.and_allOnes]; rfl

theorem OpRow.call_selects (op : Word) : OpRow.call.selects op = true ↔ fieldTop op = 0x2 :=
  OpRow.selects_iff_fieldTop op rfl rfl

theorem OpRow.ldVxKk_selects (op : Word) : OpRow.ldVxKk.selects op = true ↔ fieldTop op = 0x6 :=
  OpRow.selects_iff_fieldTop op rfl rfl

theorem OpRow.addVxKk_selects (op : Word) : OpRow.addVxKk.selects op = true ↔ fieldTop op = 0x7 :=
  OpRow.selects_iff_fieldTop op rfl rfl

theorem OpRow.ldINnn_selects (op : Word) : OpRow.ldINnn.selects op = true ↔ fieldTop op = 0xA :=
  OpRow.selects_iff_fieldTop op rfl rfl

theorem OpRow.drwVxVyN_selects (op : Word) : OpRow.drwVxVyN.selects op = true ↔ fieldTop op = 0xD :=
  OpRow.selects_iff_fieldTop op rfl rfl

theorem OpRow.ldFVx_selects (op : Word) : OpRow.ldFVx.selects op = true ↔ fieldTop op = 0xF ∧ fieldKK op = 0x29 :=
  OpRow.selects_iff_fieldTop_fieldKK op rfl rfl

theorem OpRow.ldBVx_selects (op : Word) : OpRow.ldBVx.selects op = true ↔ fieldTop op = 0xF ∧ fieldKK op = 0x33 :=
  OpRow.selects_iff_fieldTop_fieldKK op rfl rfl

theorem OpRow.ldVxI_selects (op : Word) : OpRow.ldVxI.selects op = true ↔ fieldTop op = 0xF ∧ fieldKK op = 0x65 :=
  OpRow.selects_iff_fieldTop_fieldKK op rfl rfl

/-! ## Decoding chooses the row selected (R53, R54) -/

theorem OpRow.mem_all (r : OpRow) : r ∈ OpRow.all := by
  cases r <;> decide

/-- Some row matches exactly when one of the nine does. -/
theorem OpRow.exists_iff {P : OpRow → Prop} :
    (∃ r, P r) ↔ P .ret ∨ P .call ∨ P .ldVxKk ∨ P .addVxKk ∨ P .ldINnn ∨ P .drwVxVyN ∨ P .ldFVx ∨ P .ldBVx ∨
      P .ldVxI := by
  have h : (∃ r, P r) ↔ ∃ r ∈ OpRow.all, P r := by simp only [OpRow.mem_all, true_and]
  simpa only [OpRow.all, List.exists_mem_cons_iff, List.not_mem_nil, false_and, exists_false, or_false] using h

/-- Two rows never match the same word: under the mask they share, their patterns differ. -/
theorem OpRow.eq_of_selects {op : Word} {r r' : OpRow} (h : r.selects op = true) (h' : r'.selects op = true) :
    r = r' := by
  have hdiffer : ∀ r ∈ OpRow.all, ∀ r' ∈ OpRow.all, r.pattern &&& r'.mask = r'.pattern &&& r.mask → r = r' := by
    decide
  refine hdiffer r r.mem_all r' r'.mem_all ?_
  rw [← OpRow.selects_iff.mp h, ← OpRow.selects_iff.mp h', BitVec.and_assoc, BitVec.and_assoc,
    BitVec.and_comm r.mask]

theorem find?_eq_some_of_selects {op : Word} {r : OpRow} (h : r.selects op = true) :
    OpRow.all.find? (fun r => r.selects op) = some r := by
  have hsome : (OpRow.all.find? fun r => r.selects op).isSome := List.find?_isSome.mpr ⟨r, r.mem_all, h⟩
  obtain ⟨r', hr'⟩ := Option.isSome_iff_exists.mp hsome
  rw [hr', OpRow.eq_of_selects h (List.find?_some (p := fun r : OpRow => r.selects op) hr')]

/-- A word decodes to an instruction exactly when it selects a row that builds it. -/
theorem decodeWord_eq_some_iff {op : Word} {i : Instr} :
    decodeWord op = some i ↔ ∃ r : OpRow, r.selects op = true ∧ i = r.build op := by
  rw [decodeWord, Option.map_eq_some_iff]
  constructor
  · rintro ⟨r, hr, rfl⟩
    exact ⟨r, List.find?_some (p := fun r : OpRow => r.selects op) hr, rfl⟩
  · rintro ⟨r, hr, rfl⟩
    exact ⟨r, find?_eq_some_of_selects hr, rfl⟩

/-- The words R54's table by leading nibble defines. -/
theorem decodeWord_ne_none_iff (op : Word) : decodeWord op ≠ none ↔
    op = 0x00EE ∨ fieldTop op = 0x2 ∨ fieldTop op = 0x6 ∨ fieldTop op = 0x7 ∨ fieldTop op = 0xA ∨ fieldTop op = 0xD ∨
      (fieldTop op = 0xF ∧ (fieldKK op = 0x29 ∨ fieldKK op = 0x33 ∨ fieldKK op = 0x65)) := by
  have h : decodeWord op ≠ none ↔ ∃ r : OpRow, r.selects op = true := by
    simp only [Option.ne_none_iff_exists', decodeWord_eq_some_iff, exists_comm (α := Instr), exists_and_left,
      exists_eq, and_true]
  rw [h, OpRow.exists_iff, OpRow.ret_selects, OpRow.call_selects, OpRow.ldVxKk_selects, OpRow.addVxKk_selects,
    OpRow.ldINnn_selects, OpRow.drwVxVyN_selects, OpRow.ldFVx_selects, OpRow.ldBVx_selects, OpRow.ldVxI_selects,
    and_or_left, and_or_left]

theorem fieldNNN_eq_ofNat (op : Word) : fieldNNN op = BitVec.ofNat 12 op.toNat := rfl

theorem fieldKK_eq_ofNat (op : Word) : fieldKK op = BitVec.ofNat 8 op.toNat := rfl

theorem fieldX_eq_ofNat (op : Word) : fieldX op = Fin.ofNat 16 (op.toNat / 256) := by
  rw [fieldX, BitVec.extractLsb', Nat.shiftRight_eq_div_pow]; rfl

theorem fieldY_eq_ofNat (op : Word) : fieldY op = Fin.ofNat 16 (op.toNat / 16) := by
  rw [fieldY, BitVec.extractLsb', Nat.shiftRight_eq_div_pow]; rfl

theorem fieldN_eq_ofNat (op : Word) : fieldN op = Fin.ofNat 16 op.toNat := rfl

/-- Settles O2: decoding chooses the one row selected, written out row by row. -/
theorem decodeSelectsByMaskAndMatch : Obligations.DecodeSelectsByMaskAndMatch := by
  refine ⟨fun op i => ?_, decodeWord_ne_none_iff⟩
  simp only [decodeWord_eq_some_iff, OpRow.exists_iff, OpRow.selects_iff, OpRow.mask, OpRow.pattern, OpRow.build,
    fieldNNN_eq_ofNat, fieldKK_eq_ofNat, fieldX_eq_ofNat, fieldY_eq_ofNat, fieldN_eq_ofNat]

end Sys2Proof

namespace Sys2Proof.Machine

/-! ## Undefined words (R55, R57) -/

/-- Taking an error changes nothing but the status latch (R111). -/
theorem takeError_frame (e : MachineError) (s : State) :
    (takeError e s).pc = s.pc ∧ SameV s (takeError e s) ∧ (takeError e s).i = s.i ∧ (takeError e s).stk = s.stk ∧
      SameMem s (takeError e s) ∧ SameFb s (takeError e s) :=
  ⟨rfl, readV_takeError e s, rfl, rfl, byteAt_takeError e s, pixelAt_takeError e s⟩

/-- A step of a running machine on a word that selects no row takes the error with the word, and that is all (R55). -/
theorem step_of_undefined {s : State} (hrun : s.halt = false) (hpc : s.pc.toNat + 1 < 4096)
    (hd : decodeWord (wordAt s s.pc.toNat) = none) :
    step s = .next (takeError (.unimplementedOpcode (wordAt s s.pc.toNat)) s) := by
  rcases step_cases s with ⟨hhalt, -⟩ | ⟨-, hout, -⟩ | ⟨-, -, -, hstep⟩ | ⟨i, -, -, hi, -⟩
  · rw [hrun] at hhalt; cases hhalt
  · omega
  · exact hstep
  · rw [hd] at hi; cases hi

/-- Settles O12: the step's one action is to take the error. -/
theorem undefinedWordHalts : Obligations.UndefinedWordHalts :=
  ⟨by decide, by decide, fun s hrun hpc hd =>
    ⟨_, step_of_undefined hrun hpc hd, latched_takeError _ _, takeError_frame _ s⟩⟩

/-- In family 0xF, a word with any low byte but the three sub-opcodes is undefined (R57). -/
theorem decodeWord_eq_none_of_familyF {op : Word} (htop : fieldTop op = 0xF) (hF : fieldKK op ≠ 0x29)
    (hB : fieldKK op ≠ 0x33) (hI : fieldKK op ≠ 0x65) : decodeWord op = none := by
  have hret : op ≠ 0x00EE := by
    rintro rfl
    exact absurd htop (by decide)
  rw [← not_ne_iff, decodeWord_ne_none_iff, htop]
  simp only [hret, hF, hB, hI, or_self, and_false, or_false, false_or]
  decide

/-- Settles O13: each sub-opcode selects its row; a word with any other low byte is undefined, and its step halts. -/
theorem familyFSelectsByLowByte : Obligations.FamilyFSelectsByLowByte := by
  refine ⟨fun op htop hkk => ?_, fun op htop hkk => ?_, fun op htop hkk => ?_, ?_⟩
  · exact decodeWord_eq_some_iff.mpr ⟨.ldFVx, (OpRow.ldFVx_selects op).mpr ⟨htop, hkk⟩, rfl⟩
  · exact decodeWord_eq_some_iff.mpr ⟨.ldBVx, (OpRow.ldBVx_selects op).mpr ⟨htop, hkk⟩, rfl⟩
  · exact decodeWord_eq_some_iff.mpr ⟨.ldVxI, (OpRow.ldVxI_selects op).mpr ⟨htop, hkk⟩, rfl⟩
  · rintro s op hrun hpc rfl htop hF hB hI
    exact ⟨_, step_of_undefined hrun hpc (decodeWord_eq_none_of_familyF htop hF hB hI), latched_takeError _ _⟩

end Sys2Proof.Machine
end

section
/-! The proof of the statement about `RET` (spec 40_control_transfer.md R70): the one word that decodes to it, what a
control transfer leaves unchanged, and the two laws of `exec .ret`. -/

namespace Sys2Proof

/-- Only the row of `RET` builds a `RET` (R54). -/
theorem OpRow.ret_eq_build_iff {r : OpRow} {op : Word} : Instr.ret = r.build op ↔ r = .ret := by
  cases r <;> simp [OpRow.build]

/-- One word decodes to `RET` (R56, R70). -/
theorem decodeWord_eq_some_ret_iff (op : Word) : decodeWord op = some .ret ↔ op = 0x00EE := by
  rw [decodeWord_eq_some_iff, ← OpRow.ret_selects op]
  simp only [OpRow.ret_eq_build_iff, exists_eq_right]

end Sys2Proof

namespace Sys2Proof.Machine

/-- A control transfer, which replaces the call stack and `pc`, touches no other item of the state (R70, R71). -/
theorem setStk_setPc_frame (s : State) (l : List Word) (w : Word) :
    SameV s ((s.setStk l).setPc w) ∧ ((s.setStk l).setPc w).i = s.i ∧ SameMem s ((s.setStk l).setPc w) ∧
      SameFb s ((s.setStk l).setPc w) ∧ SameLatch s ((s.setStk l).setPc w) :=
  ⟨fun _ => rfl, rfl, fun _ => rfl, fun _ _ => rfl, rfl, rfl, rfl⟩

/-- Settles O20: with a top entry the state after is the state before with the stack and `pc` replaced; with none it is
the state before with the error latched. -/
theorem retPopsIntoPc : Obligations.RetPopsIntoPc := by
  refine ⟨by decide, decodeWord_eq_some_ret_iff, fun s below top hs => ?_, fun s hs => ?_⟩
  · exact ⟨(s.setStk below).setPc top, exec_ret_of_append hs, rfl, rfl, setStk_setPc_frame s below top⟩
  · obtain ⟨hpc, hv, hi, hstk, hmem, hfb⟩ := takeError_frame .stackUnderflow s
    exact ⟨takeError .stackUnderflow s, exec_ret_of_nil hs, latched_takeError _ _, hpc, hstk.trans hs, hv, hi, hmem,
      hfb⟩

end Sys2Proof.Machine
end

section
/-! The proofs of the register and immediate statements (spec 41_register_immediate.md R80 to R82): the instruction word
as its top nibble over the operand bits, the two 8-bit and 12-bit results as numbers, and what writing one register or
`I` and advancing `pc` comes to. -/

namespace Sys2Proof

/-! ## The word of an instruction (R61) -/

/-- `x` at its place over `kk` is their concatenation, zero-extended: the operand bits of format `XKK` (R52, R61). -/
theorem placeX_or_setWidth (x : RegIx) (kk : Byte) :
    placeX x ||| kk.setWidth 16 = (BitVec.ofFin (w := 4) x ++ kk).setWidth 16 := by
  rw [BitVec.setWidth_append_eq_shiftLeft_setWidth_or,
    ← BitVec.ofNat_toNat 16 (BitVec.ofFin (w := 4) x)]; rfl

/-- A row's top nibble over an instruction's 12 operand bits, as a number. -/
theorem encodeWord_toNat_of_top {i : Instr} {t : BitVec 4} {z : BitVec 12} (hp : i.row.pattern = t ++ 0#12)
    (hz : i.operandBits = z.setWidth 16) : (encodeWord i).toNat = t.toNat * 4096 + z.toNat := by
  have hword : encodeWord i = t ++ z := by
    calc encodeWord i = t ++ 0#12 ||| 0#4 ++ z := by
          rw [encodeWord, hp, hz, BitVec.setWidth_eq_append (by decide)]; rfl
      _ = t ++ z := by rw [BitVec.or_append, BitVec.or_zero, BitVec.zero_or]
  rw [hword, toNat_append_eq_mul_add]; rfl

/-- The word of an instruction of format `XKK`, as a number. -/
theorem encodeWord_toNat_of_top_x_kk {i : Instr} {t : BitVec 4} {x : RegIx} {kk : Byte}
    (hp : i.row.pattern = t ++ 0#12) (hz : i.operandBits = placeX x ||| kk.setWidth 16) :
    (encodeWord i).toNat = t.toNat * 4096 + x.val * 256 + kk.toNat := by
  rw [encodeWord_toNat_of_top hp (hz.trans (placeX_or_setWidth x kk)), toNat_append_eq_mul_add, Nat.add_assoc]; rfl

theorem encodeWord_ldVxKk_toNat (x : RegIx) (kk : Byte) :
    (encodeWord (.ldVxKk x kk)).toNat = 0x6000 + x.val * 256 + kk.toNat :=
  encodeWord_toNat_of_top_x_kk (t := 0x6) rfl rfl

theorem encodeWord_addVxKk_toNat (x : RegIx) (kk : Byte) :
    (encodeWord (.addVxKk x kk)).toNat = 0x7000 + x.val * 256 + kk.toNat :=
  encodeWord_toNat_of_top_x_kk (t := 0x7) rfl rfl

theorem encodeWord_ldINnn_toNat (nnn : Addr12) : (encodeWord (.ldINnn nnn)).toNat = 0xA000 + nnn.toNat :=
  encodeWord_toNat_of_top (t := 0xA) rfl rfl

end Sys2Proof

namespace Sys2Proof.Machine

/-! ## The three meanings -/

theorem addByte_toNat (a b : Byte) : (addByte a b).toNat = (a.toNat + b.toNat) % 256 := by
  rw [addByte, BitVec.toNat_ofNat, Nat.mod_mod]

/-- Writing one register and advancing `pc` touches no other item of the state (R80, R81). -/
theorem setV_setPc_nextPc_spec (s : State) (x : RegIx) (b : Byte) :
    let t := (s.setV x b).setPc (nextPc s)
    readV t x = b ∧ (∀ j, j ≠ x → readV t j = readV s j) ∧ t.pc.toNat = (s.pc.toNat + 2) % 65536 ∧ t.i = s.i ∧
      t.stk = s.stk ∧ SameMem s t ∧ SameFb s t ∧ SameLatch s t := by
  refine ⟨?_, fun j hj => ?_, nextPc_toNat s, rfl, rfl, fun _ => rfl, fun _ _ => rfl, rfl, rfl, rfl⟩
  · rw [readV_setPc, readV_setV, if_pos rfl]
  · rw [readV_setPc, readV_setV, if_neg hj]

/-- Writing `I` and advancing `pc` touches no other item of the state (R82, R100). -/
theorem setI_setPc_nextPc_frame (s : State) (w : Word) :
    let t := (s.setI w).setPc (nextPc s)
    t.pc.toNat = (s.pc.toNat + 2) % 65536 ∧ SameV s t ∧ t.stk = s.stk ∧ SameMem s t ∧ SameFb s t ∧ SameLatch s t :=
  ⟨nextPc_toNat s, fun _ => rfl, rfl, fun _ => rfl, fun _ _ => rfl, rfl, rfl, rfl⟩

/-- Settles O23: the state after is the state before with `V[x]` and `pc` written. -/
theorem loadImmediateWritesVx : Obligations.LoadImmediateWritesVx := by
  intro x kk
  exact ⟨encodeWord_ldVxKk_toNat x kk, fun s => ⟨_, exec_ldVxKk x kk s, setV_setPc_nextPc_spec s x kk⟩⟩

/-- Settles O24: the state after is the state before with `V[x]` and `pc` written, the sum being `addByte`'s. -/
theorem addImmediateWrapsWithoutFlag : Obligations.AddImmediateWrapsWithoutFlag := by
  refine fun x kk => ⟨encodeWord_addVxKk_toNat x kk, fun s => ?_⟩
  obtain ⟨hx, hframe⟩ := setV_setPc_nextPc_spec s x (addByte (readV s x) kk)
  exact ⟨_, exec_addVxKk x kk s, by rw [hx, addByte_toNat], hframe⟩

/-- Settles O25: the state after is the state before with `I` and `pc` written. -/
theorem loadIndexWritesI : Obligations.LoadIndexWritesI := by
  intro nnn
  exact ⟨encodeWord_ldINnn_toNat nnn, fun s =>
    ⟨_, exec_ldINnn nnn s, zext16_toNat nnn, setI_setPc_nextPc_frame s (zext16 nnn)⟩⟩

end Sys2Proof.Machine
end

section
/-! The proof of the statement about the halted machine (spec 60_exceptions.md R114): a step is the identity there, so a
run is. -/

namespace Sys2Proof.Machine

/-- The halted branch of a step (R53, R114). -/
theorem step_of_halt {s : State} (h : s.halt = true) : step s = .next s := if_pos h

/-- A state that a step answers unchanged is where every run from it stays. -/
theorem runFor_of_step_self {s : State} (h : step s = .next s) (n : Nat) : runFor n s = s := by
  induction n with
  | zero => rfl
  | succ n ih => rw [runFor_succ, ih, stepState_of_step h]

/-- Settles O14: the halted branch of `step`, and the run from a state that a step leaves as it is. -/
theorem haltedMachineTakesNoStep : Obligations.HaltedMachineTakesNoStep := by
  intro s h
  exact ⟨step_of_halt h, runFor_of_step_self (step_of_halt h)⟩

end Sys2Proof.Machine
end

section
/-! The proofs of the statements that tie the decoder and the encoder together (spec 30_encoding.md R53, R54, R61): the
word of each instruction as the concatenation of its parts, from which its fields, its number and its row are read. -/

namespace Sys2Proof

/-! ## The fields of a concatenation (R51) -/

@[simp] theorem fieldTop_append (t : BitVec 4) (z : Addr12) : fieldTop (t ++ z) = t :=
  BitVec.extractLsb'_append_eq_left

@[simp] theorem fieldNNN_append (t : BitVec 4) (z : Addr12) : fieldNNN (t ++ z) = z :=
  BitVec.extractLsb'_append_eq_right

/-- The word of top nibble `t`, register `x` and low byte `kk` (R52, format `XKK`). -/
def wordXKK (t : BitVec 4) (x : RegIx) (kk : Byte) : Word := t ++ (BitVec.ofFin (w := 4) x ++ kk)

@[simp] theorem fieldTop_wordXKK (t : BitVec 4) (x : RegIx) (kk : Byte) : fieldTop (wordXKK t x kk) = t :=
  fieldTop_append t _

/-- `x` and `kk` are the two parts of `nnn` (R51). -/
theorem fieldX_fieldKK_wordXKK (t : BitVec 4) (x : RegIx) (kk : Byte) :
    fieldX (wordXKK t x kk) = x ∧ fieldKK (wordXKK t x kk) = kk := by
  have h := fieldNNN_eq_append (wordXKK t x kk)
  rw [wordXKK, fieldNNN_append] at h
  obtain ⟨hx, hkk⟩ := append_eq_append_iff.mp h
  exact ⟨(congrArg BitVec.toFin hx).symm, hkk.symm⟩

@[simp] theorem fieldX_wordXKK (t : BitVec 4) (x : RegIx) (kk : Byte) : fieldX (wordXKK t x kk) = x :=
  (fieldX_fieldKK_wordXKK t x kk).1

@[simp] theorem fieldKK_wordXKK (t : BitVec 4) (x : RegIx) (kk : Byte) : fieldKK (wordXKK t x kk) = kk :=
  (fieldX_fieldKK_wordXKK t x kk).2

/-- `y` and `n` are the two parts of `kk` (R51). -/
theorem fieldY_fieldN_of_fieldKK {op : Word} {y : RegIx} {n : Fin 16}
    (h : fieldKK op = BitVec.ofFin (w := 4) y ++ BitVec.ofFin (w := 4) n) : fieldY op = y ∧ fieldN op = n := by
  rw [fieldKK_eq_append] at h
  obtain ⟨hy, hn⟩ := append_eq_append_iff.mp h
  exact ⟨congrArg BitVec.toFin hy, congrArg BitVec.toFin hn⟩

/-- A word is its top nibble, then `x`, then `kk` (R52, format `XKK`). -/
theorem wordXKK_fields (op : Word) : wordXKK (fieldTop op) (fieldX op) (fieldKK op) = op := by
  rw [wordXKK, ← fieldNNN_eq_append, fieldTop_append_fieldNNN]

/-! ## The word of each instruction (R61) -/

/-- The word of an instruction with 12 operand bits: the top nibble of its match, then the match's low bits with the
operands put in. -/
theorem encodeWord_eq_append {i : Instr} {t : BitVec 4} {p z : BitVec 12} (hp : i.row.pattern = t ++ p)
    (hz : i.operandBits = z.setWidth 16) : encodeWord i = t ++ (p ||| z) := by
  calc encodeWord i = t ++ p ||| 0#4 ++ z := by
        rw [encodeWord, hp, hz, BitVec.setWidth_eq_append (by decide)]; rfl
    _ = t ++ (p ||| z) := by rw [BitVec.or_append, BitVec.or_zero]

/-- The word of an instruction of format `X` or `XKK`: the low byte of its match with `kk` put in. -/
theorem encodeWord_eq_append_x_kk {i : Instr} {t : BitVec 4} {x : RegIx} {k kk : Byte}
    (hp : i.row.pattern = t ++ (0#4 ++ k)) (hz : i.operandBits = placeX x ||| kk.setWidth 16) :
    encodeWord i = wordXKK t x (k ||| kk) := by
  rw [wordXKK, encodeWord_eq_append hp (hz.trans (placeX_or_setWidth x kk)), BitVec.or_append, BitVec.zero_or]

/-- `y` at its place over `n` is their concatenation, zero-extended (R52, format `XYN`). -/
theorem placeY_or_ofNat (y n : RegIx) :
    placeY y ||| BitVec.ofNat 16 n.val = (BitVec.ofFin (w := 4) y ++ BitVec.ofFin (w := 4) n).setWidth 16 := by
  rw [BitVec.setWidth_append_eq_shiftLeft_setWidth_or,
    ← BitVec.ofNat_toNat 16 (BitVec.ofFin (w := 4) y), ← BitVec.ofNat_toNat 16 (BitVec.ofFin (w := 4) n)]; rfl

theorem encodeWord_ret : encodeWord .ret = 0x00EE := rfl

theorem encodeWord_call (nnn : Addr12) : encodeWord (.call nnn) = (0x2 : BitVec 4) ++ nnn :=
  (encodeWord_eq_append (p := 0#12) rfl rfl).trans (by rw [BitVec.zero_or])

theorem encodeWord_ldVxKk (x : RegIx) (kk : Byte) : encodeWord (.ldVxKk x kk) = wordXKK 0x6 x kk :=
  (encodeWord_eq_append_x_kk (k := 0#8) rfl rfl).trans (by rw [BitVec.zero_or])

theorem encodeWord_addVxKk (x : RegIx) (kk : Byte) : encodeWord (.addVxKk x kk) = wordXKK 0x7 x kk :=
  (encodeWord_eq_append_x_kk (k := 0#8) rfl rfl).trans (by rw [BitVec.zero_or])

theorem encodeWord_ldINnn (nnn : Addr12) : encodeWord (.ldINnn nnn) = (0xA : BitVec 4) ++ nnn :=
  (encodeWord_eq_append (p := 0#12) rfl rfl).trans (by rw [BitVec.zero_or])

theorem encodeWord_drwVxVyN (x y : RegIx) (n : Fin 16) :
    encodeWord (.drwVxVyN x y n) = wordXKK 0xD x (BitVec.ofFin (w := 4) y ++ BitVec.ofFin (w := 4) n) := by
  have hz : (Instr.drwVxVyN x y n).operandBits =
      placeX x ||| (BitVec.ofFin (w := 4) y ++ BitVec.ofFin (w := 4) n).setWidth 16 := by
    rw [← placeY_or_ofNat, ← BitVec.or_assoc]; rfl
  rw [encodeWord_eq_append_x_kk (t := (0xD : BitVec 4)) (k := 0#8) rfl hz, BitVec.zero_or]

/-- The word of an instruction of format `X`. -/
theorem encodeWord_eq_append_x {i : Instr} {x : RegIx} {k : Byte} (hp : i.row.pattern = (0xF : BitVec 4) ++ (0#4 ++ k))
    (hz : i.operandBits = placeX x) : encodeWord i = wordXKK 0xF x k := by
  have hz0 : i.operandBits = placeX x ||| (0#8).setWidth 16 := hz.trans BitVec.or_zero.symm
  rw [encodeWord_eq_append_x_kk hp hz0, BitVec.or_zero]

theorem encodeWord_ldFVx (x : RegIx) : encodeWord (.ldFVx x) = wordXKK 0xF x 0x29 :=
  encodeWord_eq_append_x rfl rfl

theorem encodeWord_ldBVx (x : RegIx) : encodeWord (.ldBVx x) = wordXKK 0xF x 0x33 :=
  encodeWord_eq_append_x rfl rfl

theorem encodeWord_ldVxI (x : RegIx) : encodeWord (.ldVxI x) = wordXKK 0xF x 0x65 :=
  encodeWord_eq_append_x rfl rfl

/-! ## Decoding and encoding are inverse (R53, R61) -/

/-- An instruction's word selects the instruction's row. -/
theorem row_selects_encodeWord (i : Instr) : i.row.selects (encodeWord i) = true := by
  cases i with
  | ret => exact (OpRow.ret_selects _).mpr encodeWord_ret
  | call nnn => exact (OpRow.call_selects _).mpr (by rw [encodeWord_call, fieldTop_append])
  | ldVxKk x kk => exact (OpRow.ldVxKk_selects _).mpr (by rw [encodeWord_ldVxKk, fieldTop_wordXKK])
  | addVxKk x kk => exact (OpRow.addVxKk_selects _).mpr (by rw [encodeWord_addVxKk, fieldTop_wordXKK])
  | ldINnn nnn => exact (OpRow.ldINnn_selects _).mpr (by rw [encodeWord_ldINnn, fieldTop_append])
  | drwVxVyN x y n => exact (OpRow.drwVxVyN_selects _).mpr (by rw [encodeWord_drwVxVyN, fieldTop_wordXKK])
  | ldFVx x => exact (OpRow.ldFVx_selects _).mpr (by simp [encodeWord_ldFVx])
  | ldBVx x => exact (OpRow.ldBVx_selects _).mpr (by simp [encodeWord_ldBVx])
  | ldVxI x => exact (OpRow.ldVxI_selects _).mpr (by simp [encodeWord_ldVxI])

/-- An instruction's row builds it from its word: the fields hold its operands. -/
theorem build_row_encodeWord (i : Instr) : i.row.build (encodeWord i) = i := by
  cases i with
  | ret => rfl
  | call nnn => simp [Instr.row, OpRow.build, encodeWord_call]
  | ldVxKk x kk => simp [Instr.row, OpRow.build, encodeWord_ldVxKk]
  | addVxKk x kk => simp [Instr.row, OpRow.build, encodeWord_addVxKk]
  | ldINnn nnn => simp [Instr.row, OpRow.build, encodeWord_ldINnn]
  | drwVxVyN x y n =>
    have hkk : fieldKK (encodeWord (.drwVxVyN x y n)) = BitVec.ofFin (w := 4) y ++ BitVec.ofFin (w := 4) n := by
      rw [encodeWord_drwVxVyN, fieldKK_wordXKK]
    obtain ⟨hy, hn⟩ := fieldY_fieldN_of_fieldKK hkk
    rw [Instr.row, OpRow.build, hy, hn, encodeWord_drwVxVyN, fieldX_wordXKK]
  | ldFVx x => simp [Instr.row, OpRow.build, encodeWord_ldFVx]
  | ldBVx x => simp [Instr.row, OpRow.build, encodeWord_ldBVx]
  | ldVxI x => simp [Instr.row, OpRow.build, encodeWord_ldVxI]

theorem decodeWord_encodeWord (i : Instr) : decodeWord (encodeWord i) = some i :=
  decodeWord_eq_some_iff.mpr ⟨i.row, row_selects_encodeWord i, (build_row_encodeWord i).symm⟩

/-- The two bytes of a word, joined again. -/
theorem joinBytes_hiByte_loByte (op : Word) : joinBytes (hiByte op) (loByte op) = op :=
  BitVec.extractLsb'_append_extractLsb' (w := 8) (len := 8)

/-- Every instruction's line is well-formed and reads back as the instruction (R59), constructor by constructor. -/
theorem wellFormedness (i : Instr) : Laws.WellFormedness.Statement i :=
  match i with
  | .ret => Laws.WellFormedness.ret
  | .call nnn => Laws.WellFormedness.call nnn
  | .ldVxKk x kk => Laws.WellFormedness.ldVxKk x kk
  | .addVxKk x kk => Laws.WellFormedness.addVxKk x kk
  | .ldINnn nnn => Laws.WellFormedness.ldINnn nnn
  | .drwVxVyN x y n => Laws.WellFormedness.drwVxVyN x y n
  | .ldFVx x => Laws.WellFormedness.ldFVx x
  | .ldBVx x => Laws.WellFormedness.ldBVx x
  | .ldVxI x => Laws.WellFormedness.ldVxI x

/-- Settles O4: an instruction's word selects its row, which builds the instruction; its two bytes join to its word. -/
theorem decodeOfEncodeIsIdentity : Obligations.DecodeOfEncodeIsIdentity := by
  refine fun i rest => ⟨(wellFormedness i).1, decodeWord_encodeWord i, ?_⟩
  rw [encode, List.cons_append, List.cons_append, List.nil_append, decode, joinBytes_hiByte_loByte,
    decodeWord_encodeWord]

/-- Settles O3: two rows that match the same word have patterns equal under their common mask, and no two do. -/
theorem noWordSelectsTwoRows : Obligations.NoWordSelectsTwoRows :=
  fun _ _ _ => OpRow.eq_of_selects

/-- A word that selects a row is the word of the instruction the row builds from it. -/
theorem encodeWord_build_of_selects {op : Word} {r : OpRow} (h : r.selects op = true) :
    encodeWord (r.build op) = op := by
  cases r with
  | ret => rw [OpRow.build, encodeWord_ret, (OpRow.ret_selects op).mp h]
  | call => rw [OpRow.build, encodeWord_call, ← (OpRow.call_selects op).mp h, fieldTop_append_fieldNNN]
  | ldVxKk =>
    rw [OpRow.build, encodeWord_ldVxKk, ← (OpRow.ldVxKk_selects op).mp h, wordXKK_fields]
  | addVxKk =>
    rw [OpRow.build, encodeWord_addVxKk, ← (OpRow.addVxKk_selects op).mp h, wordXKK_fields]
  | ldINnn => rw [OpRow.build, encodeWord_ldINnn, ← (OpRow.ldINnn_selects op).mp h, fieldTop_append_fieldNNN]
  | drwVxVyN =>
    rw [OpRow.build, encodeWord_drwVxVyN, ← fieldKK_eq_append, ← (OpRow.drwVxVyN_selects op).mp h,
      wordXKK_fields]
  | ldFVx =>
    obtain ⟨htop, hkk⟩ := (OpRow.ldFVx_selects op).mp h
    rw [OpRow.build, encodeWord_ldFVx, ← htop, ← hkk, wordXKK_fields]
  | ldBVx =>
    obtain ⟨htop, hkk⟩ := (OpRow.ldBVx_selects op).mp h
    rw [OpRow.build, encodeWord_ldBVx, ← htop, ← hkk, wordXKK_fields]
  | ldVxI =>
    obtain ⟨htop, hkk⟩ := (OpRow.ldVxI_selects op).mp h
    rw [OpRow.build, encodeWord_ldVxI, ← htop, ← hkk, wordXKK_fields]

/-- Settles O5: the instruction is built by the row the word selects. -/
theorem encodeOfDecodedIsIdentity : Obligations.EncodeOfDecodedIsIdentity := by
  intro op i h
  obtain ⟨r, hr, rfl⟩ := decodeWord_eq_some_iff.mp h
  exact encodeWord_build_of_selects hr

/-! ## Words and bytes as numbers (R34, R61) -/

/-- The word of format `XKK` as a number. -/
theorem wordXKK_toNat (t : BitVec 4) (x : RegIx) (kk : Byte) :
    (wordXKK t x kk).toNat = t.toNat * 4096 + (x.val * 256 + kk.toNat) := by
  rw [wordXKK, toNat_append_eq_mul_add, toNat_append_eq_mul_add]; rfl

/-- The bytes of a word as numbers, the high one first. -/
theorem map_toNat_encode (i : Instr) :
    (encode i).map BitVec.toNat = [(encodeWord i).toNat / 256, (encodeWord i).toNat % 256] := by
  have h := Machine.joinBytes_toNat (hiByte (encodeWord i)) (loByte (encodeWord i))
  have hlo := (loByte (encodeWord i)).isLt
  rw [joinBytes_hiByte_loByte] at h
  rw [encode, List.map_cons, List.map_cons, List.map_nil,
    show (encodeWord i).toNat / 256 = (hiByte (encodeWord i)).toNat by omega,
    show (encodeWord i).toNat % 256 = (loByte (encodeWord i)).toNat by omega]

theorem encodeWord_drwVxVyN_toNat (x y : RegIx) (n : Fin 16) :
    (encodeWord (.drwVxVyN x y n)).toNat = 0xD000 + x.val * 256 + y.val * 16 + n.val := by
  rw [encodeWord_drwVxVyN, wordXKK_toNat, toNat_append_eq_mul_add, ← Nat.add_assoc, ← Nat.add_assoc]; rfl

/-- The word of an instruction of format `X` as a number. -/
theorem wordXKK_toNat_of_x (x : RegIx) (k : Byte) : (wordXKK 0xF x k).toNat = 0xF000 + k.toNat + x.val * 256 := by
  rw [wordXKK_toNat, Nat.add_comm (x.val * 256), ← Nat.add_assoc]; rfl

/-- Settles O6: a concatenation as a number, for the word of each instruction. -/
theorem encodedWordsAreMatchPlusOperands : Obligations.EncodedWordsAreMatchPlusOperands :=
  ⟨rfl, fun nnn => by rw [encodeWord_call, toNat_append_eq_mul_add]; rfl, encodeWord_ldVxKk_toNat,
    encodeWord_addVxKk_toNat, encodeWord_ldINnn_toNat, encodeWord_drwVxVyN_toNat,
    fun x => by rw [encodeWord_ldFVx, wordXKK_toNat_of_x]; rfl,
    fun x => by rw [encodeWord_ldBVx, wordXKK_toNat_of_x]; rfl,
    fun x => by rw [encodeWord_ldVxI, wordXKK_toNat_of_x]; rfl, map_toNat_encode⟩

/-- Settles O7: each word is the word of its instruction. -/
theorem writtenOutWordsDecode : Obligations.WrittenOutWordsDecode :=
  ⟨decodeWord_encodeWord .ret, decodeWord_encodeWord (.call 0x20A), decodeWord_encodeWord (.ldVxKk 0 5),
    decodeWord_encodeWord (.addVxKk 0 3), decodeWord_encodeWord (.ldINnn 0x210),
    decodeWord_encodeWord (.drwVxVyN 0 1 2), decodeWord_encodeWord (.ldFVx 3), decodeWord_encodeWord (.ldBVx 10),
    decodeWord_encodeWord (.ldVxI 2)⟩

end Sys2Proof
end

section
/-! The proofs of the statements about the whole machine (spec 10_state.md R10 to R17, 60_exceptions.md R110, R112):
what one effect does to each item of the state, then the rules over a step as case analyses of `StepEffect`. -/

namespace Sys2Proof.Machine

/-! ## The instruction a step executes -/

/-- A running machine at a decodable word steps by executing it (R53). -/
theorem step_of_executes {s : State} {i : Instr} (h : Executes s i) : step s = exec i s := by
  obtain ⟨hrun, hpc, hdec⟩ := h
  rcases step_cases s with ⟨hhalt, -⟩ | ⟨-, hout, -⟩ | ⟨-, -, hnone, -⟩ | ⟨j, -, -, hj, hstep⟩
  · rw [hrun] at hhalt; cases hhalt
  · exact absurd hpc (Nat.not_lt.mpr hout)
  · rw [hdec] at hnone; cases hnone
  · rw [hdec] at hj; cases hj; exact hstep

theorem effect_of_executes {s t : State} {i : Instr} (h : Executes s i) (hstep : step s = .next t) : Effect s i t :=
  exec_effect (step_of_executes h ▸ hstep)

/-- A state executes one instruction only. -/
theorem executes_iff {s : State} {i j : Instr} (h : Executes s i) : Executes s j ↔ j = i := by
  refine ⟨fun hj => ?_, fun e => e ▸ h⟩
  obtain ⟨-, -, hi⟩ := h
  obtain ⟨-, -, hj⟩ := hj
  exact Option.some.inj (hj.symm.trans hi)

/-! ## Raising or completing (R110, R134) -/

/-- The condition under which executing an instruction raises an error (R134). -/
def Fails (s : State) : Instr → Prop
  | .ret => s.stk = []
  | .call _ => 16 ≤ s.stk.length
  | .drwVxVyN x y n => ¬DrawFits s x y n
  | .ldBVx _ => 4093 < s.i.toNat
  | .ldVxI x => 4095 < s.i.toNat + x.val
  | .ldVxKk _ _ | .addVxKk _ _ | .ldINnn _ | .ldFVx _ => False

/-- The error an instruction raises when it fails (R110). -/
def failure : Instr → MachineError
  | .ret => .stackUnderflow
  | .call _ => .stackOverflow
  | _ => .addressOutOfRange

/-- Where an instruction that completes leaves `pc` and the call stack (R13, R14). -/
def Transfers (s : State) (i : Instr) (t : State) : Prop :=
  match i with
  | .ret => s.stk = t.stk ++ [t.pc]
  | .call nnn => t.stk = s.stk ++ [nextPc s] ∧ t.pc = zext16 nnn
  | _ => t.stk = s.stk ∧ t.pc = nextPc s

/-- An instruction fails, with `pc`, the call stack and `I` as they were; or it completes, with the latch as it was. -/
theorem Effect.failed_or_completed {s t : State} {i : Instr} (h : Effect s i t) :
    (Fails s i ∧ ∃ u, t = takeError (failure i) u ∧ u.pc = s.pc ∧ u.stk = s.stk ∧ u.i = s.i) ∨
      (¬Fails s i ∧ SameLatch s t ∧ Transfers s i t) := by
  cases h with
  | ret below top hs => exact .inr ⟨by simp [Fails, hs], ⟨rfl, rfl, rfl⟩, hs⟩
  | retEmpty hs => exact .inl ⟨hs, s, rfl, rfl, rfl, rfl⟩
  | call nnn hs => exact .inr ⟨Nat.not_le.mpr hs, ⟨rfl, rfl, rfl⟩, rfl, rfl⟩
  | callFull nnn hs => exact .inl ⟨hs, s, rfl, rfl, rfl, rfl⟩
  | ldVxKk | addVxKk | ldINnn | ldFVx => exact .inr ⟨id, ⟨rfl, rfl, rfl⟩, rfl, rfl⟩
  | drw x y n u hf hfits =>
    obtain ⟨-, -, -, hstk, -, hhalt, herr, hinfo⟩ := hf.fields
    exact .inr ⟨not_not_intro hfits, ⟨hhalt, herr, hinfo⟩, hstk, rfl⟩
  | drwCut x y n u hf hfits =>
    obtain ⟨-, hi, hpc, hstk, -⟩ := hf.fields
    exact .inl ⟨hfits, u, rfl, hpc, hstk, hi⟩
  | ldBVx x hs => exact .inr ⟨Nat.not_lt.mpr hs, ⟨rfl, rfl, rfl⟩, rfl, rfl⟩
  | ldBVxCut x m hs => exact .inl ⟨hs, s.setMem m, rfl, rfl, rfl, rfl⟩
  | ldVxI x u ho hs =>
    obtain ⟨-, -, hstk, -, -, hhalt, herr, hinfo⟩ := ho.fields
    exact .inr ⟨Nat.not_lt.mpr (Nat.le_of_lt_succ hs), ⟨hhalt, herr, hinfo⟩, hstk, rfl⟩
  | ldVxICut x u ho hs =>
    obtain ⟨hi, hpc, hstk, -⟩ := ho.fields
    exact .inl ⟨Nat.not_le.mp fun hle => hs (Nat.lt_succ_of_le hle), u, rfl, hpc, hstk, hi⟩

/-- A running machine is halted by an instruction exactly when the instruction fails. -/
theorem Effect.halt_iff {s t : State} {i : Instr} (hrun : s.halt = false) (h : Effect s i t) :
    t.halt = true ↔ Fails s i := by
  rcases h.failed_or_completed with ⟨hfail, u, rfl, -⟩ | ⟨hok, ⟨hhalt, -⟩, -⟩
  · simp [hfail]
  · simp [hok, hhalt, hrun]

/-! ## Effects item by item -/

theorem Effect.index {s t : State} {i : Instr} (h : Effect s i t) :
    t.i = s.i ∨ (∃ nnn, i = .ldINnn nnn ∧ t.i = zext16 nnn) ∨
      ∃ x, i = .ldFVx x ∧ t.i = glyphAddress (readV s x) := by
  cases h with
  | ldINnn nnn => exact .inr (.inl ⟨nnn, rfl, rfl⟩)
  | ldFVx x => exact .inr (.inr ⟨x, rfl, rfl⟩)
  | drw _ _ _ u hf | drwCut _ _ _ u hf => exact .inl hf.fields.2.1
  | ldVxI _ u ho | ldVxICut _ u ho => exact .inl ho.fields.1
  | ret | retEmpty | call | callFull | ldVxKk | addVxKk | ldBVx | ldBVxCut => exact .inl rfl

/-- `m'` is `m` after some bytes were stored, each at an address of `A`. -/
inductive StoredAt (A : Nat → Prop) (m : Memory) : Memory → Prop where
  | refl : StoredAt A m m
  | setCell {m' : Memory} {a : Nat} (w : Byte) : StoredAt A m m' → A a → StoredAt A m (m'.setCell a w)

theorem StoredAt.wf {A : Nat → Prop} {m m' : Memory} (h : StoredAt A m m') (hA : ∀ a, A a → a < Config.memSize)
    (hm : m.wf) : m'.wf := by
  induction h with
  | refl => exact hm
  | setCell w _ ha ih => exact Memory.wf_setCell ih (hA _ ha) w

theorem StoredAt.cellAt {A : Nat → Prop} {m m' : Memory} (h : StoredAt A m m') {a : Nat} (ha : ¬A a) :
    m'.cellAt a = m.cellAt a := by
  induction h with
  | refl => rfl
  | setCell w _ hb ih => rw [Memory.cellAt_setCell, if_neg (by rintro rfl; exact ha hb), ih]

/-- The addresses an instruction may store to (R101). -/
def StoreTarget (s : State) (i : Instr) (a : Nat) : Prop :=
  (∃ x, i = .ldBVx x) ∧ a < 4096 ∧ (a = effAddr s 0 ∨ a = effAddr s 1 ∨ a = effAddr s 2)

theorem storeTarget_effAddr {s : State} (x : RegIx) {k : Nat} (hk : k < 3) (hin : s.i.toNat + k < 4096) :
    StoreTarget s (.ldBVx x) (effAddr s k) := by
  refine ⟨⟨x, rfl⟩, hin, ?_⟩
  match k, hk with
  | 0, _ => exact .inl rfl
  | 1, _ => exact .inr (.inl rfl)
  | 2, _ => exact .inr (.inr rfl)

theorem Effect.mem {s t : State} {i : Instr} (h : Effect s i t) : StoredAt (StoreTarget s i) s.mem t.mem := by
  cases h with
  | ldBVx x hs =>
    exact ((StoredAt.refl.setCell _ (storeTarget_effAddr x (by decide) (by omega))).setCell _
      (storeTarget_effAddr x (by decide) (by omega))).setCell _ (storeTarget_effAddr x (by decide) (by omega))
  | ldBVxCut x m hs hm =>
    rcases hm with ⟨hi, rfl⟩ | ⟨hi, rfl⟩ | ⟨-, rfl⟩
    · exact (StoredAt.refl.setCell _ (storeTarget_effAddr x (by decide) (by omega))).setCell _
        (storeTarget_effAddr x (by decide) (by omega))
    · exact StoredAt.refl.setCell _ (storeTarget_effAddr x (by decide) (by omega))
    · exact StoredAt.refl
  | drw _ _ _ u hf | drwCut _ _ _ u hf =>
    obtain ⟨-, -, -, -, hmem, -⟩ := hf.fields
    exact (show _ = s.mem from hmem) ▸ StoredAt.refl
  | ldVxI _ u ho | ldVxICut _ u ho =>
    obtain ⟨-, -, -, hmem, -⟩ := ho.fields
    exact (show _ = s.mem from hmem) ▸ StoredAt.refl
  | ret | retEmpty | call | callFull | ldVxKk | addVxKk | ldINnn | ldFVx => exact StoredAt.refl

/-- A pixel that a drawn sprite flips is in the sprite's rectangle and in the grid. -/
theorem Flipped.mem_rectangle {s t : State} {vx vy rows width c r : Nat}
    (h : Flipped s t (spriteFlip s vx vy rows width)) (hne : pixelAt t c r ≠ pixelAt s c r) :
    c < 64 ∧ r < 32 ∧ vx ≤ c ∧ c < vx + width ∧ vy ≤ r ∧ r < vy + rows := by
  have hgrid : c < 64 ∧ r < 32 := by
    by_contra hout
    exact hne (by rw [pixelAt_outside t hout, pixelAt_outside s hout])
  have hflip : spriteFlip s vx vy rows width c r = true := by
    by_contra hf
    exact hne (by rw [h.2, Bool.eq_false_of_not_eq_true hf, Bool.xor_false])
  obtain ⟨hrect, -⟩ := (Bool.and_eq_true _ _).mp hflip
  obtain ⟨hvy, hr, hvx, hc⟩ := of_decide_eq_true hrect
  exact ⟨hgrid.1, hgrid.2, hvx, hc, hvy, hr⟩

theorem drawnRows_le (s : State) (vx vy n : Nat) : drawnRows s vx vy n ≤ n := by
  unfold drawnRows; split <;> omega

theorem drawnWidth_le (vx : Nat) : drawnWidth vx ≤ 8 := Nat.min_le_left _ _

theorem Effect.pixels {s t : State} {i : Instr} (h : Effect s i t) {c r : Nat} (hne : pixelAt t c r ≠ pixelAt s c r) :
    ∃ x y n, i = .drwVxVyN x y n ∧ c < 64 ∧ r < 32 ∧ (readV s x).toNat ≤ c ∧ c < (readV s x).toNat + 8 ∧
      (readV s y).toNat ≤ r ∧ r < (readV s y).toNat + n.val := by
  cases h with
  | drw x y n u hf => exact ⟨x, y, n, rfl, hf.mem_rectangle hne⟩
  | drwCut x y n u hf =>
    obtain ⟨hc, hr, hvx, hcx, hvy, hry⟩ := hf.mem_rectangle hne
    exact ⟨x, y, n, rfl, hc, hr, hvx, Nat.lt_of_lt_of_le hcx (Nat.add_le_add_left (drawnWidth_le _) _), hvy,
      Nat.lt_of_lt_of_le hry (Nat.add_le_add_left (drawnRows_le ..) _)⟩
  | ldVxI _ u ho | ldVxICut _ u ho =>
    obtain ⟨-, -, -, -, hfb, -⟩ := ho.fields
    exact absurd (congrArg (fun f => FrameBuffer.pixel f c r) hfb) hne
  | ret | retEmpty | call | callFull | ldVxKk | addVxKk | ldINnn | ldFVx | ldBVx | ldBVxCut => exact absurd rfl hne

/-- What a drawn-on state keeps of the registers. -/
theorem Flipped.readV {s t : State} {flip : Nat → Nat → Bool} (h : Flipped s t flip) (j : RegIx) :
    Machine.readV t j = Machine.readV s j := by
  rw [h.1, readV_setFb]

theorem Effect.registers {s t : State} {i : Instr} (h : Effect s i t) {j : RegIx} (hne : readV t j ≠ readV s j) :
    (∃ kk, i = .ldVxKk j kk) ∨ (∃ kk, i = .addVxKk j kk) ∨ (j = 15 ∧ ∃ x y n, i = .drwVxVyN x y n) ∨
      ∃ x, j ≤ x ∧ i = .ldVxI x := by
  cases h with
  | ldVxKk x kk =>
    by_cases hj : j = x
    · exact .inl ⟨kk, by rw [hj]⟩
    · exact absurd (by simp [hj]) hne
  | addVxKk x kk =>
    by_cases hj : j = x
    · exact .inr (.inl ⟨kk, by rw [hj]⟩)
    · exact absurd (by simp [hj]) hne
  | drw x y n u hf =>
    by_cases hj : j = 15
    · exact .inr (.inr (.inl ⟨hj, x, y, n, rfl⟩))
    · exact absurd (by simp [hj, hf.readV]) hne
  | drwCut x y n u hf => exact absurd (hf.readV j) hne
  | ldVxI x u ho hs hv =>
    by_cases hj : j ≤ x
    · exact .inr (.inr (.inr ⟨x, hj, rfl⟩))
    · exact absurd ((hv j).trans (if_neg hj)) hne
  | ldVxICut x u ho hs hv =>
    by_cases hj : effAddr s j < 4096
    · refine .inr (.inr (.inr ⟨x, ?_, rfl⟩))
      simp only [effAddr] at hj
      exact Fin.le_def.mpr (by omega)
    · exact absurd ((hv j).trans (if_neg hj)) hne
  | ret | retEmpty | call | callFull | ldINnn | ldFVx | ldBVx | ldBVxCut => exact absurd rfl hne

/-! ## The rules over a step -/

/-- Settles O37: a failing instruction keeps the stack, a completing one transfers control. -/
theorem onlyCallAndRetTouchTheStack : Obligations.OnlyCallAndRetTouchTheStack := by
  intro s t h
  cases step_effect h with
  | halted | noFetch | undefined => exact .inl rfl
  | ran i _ hx he =>
    rcases he.failed_or_completed with ⟨-, u, rfl, -, hstk, -⟩ | ⟨-, -, htr⟩
    · exact .inl hstk
    · cases i with
      | ret => exact .inr (.inr ⟨hx, htr⟩)
      | call nnn => exact .inr (.inl ⟨nnn, nextPc s, hx, htr.1, nextPc_toNat s⟩)
      | _ => exact .inl htr.1

/-- Settles O38: the two index loads, from the effect on `I`. -/
theorem onlyIndexLoadsWriteI : Obligations.OnlyIndexLoadsWriteI := by
  intro s t h
  cases step_effect h with
  | halted | noFetch | undefined => exact .inl rfl
  | ran i _ hx he =>
    rcases he.index with hi | ⟨nnn, rfl, hi⟩ | ⟨x, rfl, hi⟩
    · exact .inl hi
    · exact .inr (.inl ⟨nnn, hx, by rw [hi, zext16_toNat]⟩)
    · exact .inr (.inr ⟨x, hx, by rw [hi, glyphAddress_toNat]⟩)

/-- Settles O39: a byte that differs is at a store target, and only `LD B,Vx` has any. -/
theorem onlyStoreDigitsWritesMemory : Obligations.OnlyStoreDigitsWritesMemory := by
  intro s t a h hne
  cases step_effect h with
  | halted | noFetch | undefined => exact absurd rfl hne
  | ran i _ hx he =>
    obtain ⟨⟨x, rfl⟩, ha⟩ : StoreTarget s i a := by
      by_contra hno
      exact hne (he.mem.cellAt hno)
    exact ⟨x, hx, ha⟩

/-- Settles O40: from the effect on the pixels. -/
theorem onlyDrawChangesPixels : Obligations.OnlyDrawChangesPixels := by
  intro s t c r h hne
  cases step_effect h with
  | halted | noFetch | undefined => exact absurd rfl hne
  | ran i _ hx he =>
    obtain ⟨x, y, n, rfl, hrect⟩ := he.pixels hne
    exact ⟨x, y, n, hx, hrect⟩

/-- Settles O41: from the effect on the registers. -/
theorem registerWriters : Obligations.RegisterWriters := by
  intro s t j h hne
  cases step_effect h with
  | halted | noFetch | undefined => exact absurd rfl hne
  | ran i _ hx he =>
    rcases he.registers hne with ⟨kk, rfl⟩ | ⟨kk, rfl⟩ | ⟨rfl, x, y, n, rfl⟩ | ⟨x, hj, rfl⟩
    · exact .inl ⟨kk, hx⟩
    · exact .inr (.inl ⟨kk, hx⟩)
    · exact .inr (.inr (.inl ⟨rfl, x, y, n, hx⟩))
    · exact .inr (.inr (.inr ⟨x, hj, hx⟩))

/-- Settles O42: the instruction completed, so it transferred control. -/
theorem pcUpdateTable : Obligations.PcUpdateTable := by
  intro s t i hx h hhalt
  rcases (effect_of_executes hx h).failed_or_completed with ⟨-, u, rfl, -⟩ | ⟨-, -, htr⟩
  · cases hhalt
  · cases i with
    | ret => simp only [show s.stk = t.stk ++ [t.pc] from htr, List.getLast?_concat]
    | call nnn => simp only [htr.2, zext16_toNat]
    | _ => simp only [htr.2, nextPc_of_executes hx]

/-- Settles O43: the fetch errors take the error in the state as it is, and a failing instruction keeps the three. -/
theorem errorLeavesPcAtTheInstruction : Obligations.ErrorLeavesPcAtTheInstruction := by
  intro s t hrun h hhalt
  cases step_effect h with
  | halted hh => rw [hrun] at hh; cases hh
  | noFetch | undefined => exact ⟨rfl, rfl, rfl⟩
  | ran i _ hx he =>
    rcases he.failed_or_completed with ⟨-, u, rfl, hkeeps⟩ | ⟨-, ⟨hsame, -⟩, -⟩
    · exact hkeeps
    · rw [hsame, hrun] at hhalt; cases hhalt

/-- At an instruction that executes, the listed conditions say that it fails. -/
theorem fails_iff_listed {s : State} {i : Instr} (hx : Executes s i) :
    Fails s i ↔ (Executes s .ret ∧ s.stk = []) ∨
      (∃ nnn, Executes s (.call nnn) ∧ 16 ≤ s.stk.length) ∨
      (∃ x y n, Executes s (.drwVxVyN x y n) ∧ ¬DrawFits s x y n) ∨
      (∃ x, Executes s (.ldBVx x) ∧ 4093 < s.i.toNat) ∨
      (∃ x, Executes s (.ldVxI x) ∧ 4095 < s.i.toNat + x.val) := by
  simp only [executes_iff hx]
  cases i <;> simp [Fails]

/-- Settles O44: the fetch halts on the first two conditions, and an instruction halts exactly when it fails. -/
theorem stepHaltsExactlyOnTheListedErrors : Obligations.StepHaltsExactlyOnTheListedErrors := by
  intro s t hrun h
  cases step_effect h with
  | halted hh => rw [hrun] at hh; cases hh
  | noFetch _ hp => exact iff_of_true rfl (.inl hp)
  | undefined _ hp hd => exact iff_of_true rfl (.inr (.inl ⟨hp, hd⟩))
  | ran i _ hx he =>
    rw [he.halt_iff hrun, ← fails_iff_listed hx]
    obtain ⟨-, hfit, hdec⟩ := hx
    have hfetch : ¬4096 ≤ s.pc.toNat + 1 := Nat.not_le.mpr hfit
    simp only [hfetch, hdec, reduceCtorEq, and_false, false_or]

/-- Settles O45: the fetch errors, then the failure of each instruction that can fail. -/
theorem errorKindNamesTheCause : Obligations.ErrorKindNamesTheCause := by
  intro s t hrun h hhalt
  cases step_effect h with
  | halted hh => rw [hrun] at hh; cases hh
  | noFetch _ hp => exact .inr (.inl ⟨rfl, rfl, .inl hp⟩)
  | undefined _ hp hd => exact .inl ⟨rfl, hp, rfl, hd⟩
  | ran i _ hx he =>
    rcases he.failed_or_completed with ⟨hfail, u, rfl, -⟩ | ⟨-, ⟨hsame, -⟩, -⟩
    · cases i with
      | ret => exact .inr (.inr (.inl ⟨rfl, rfl, hx, hfail⟩))
      | call nnn => exact .inr (.inr (.inr ⟨rfl, rfl, ⟨nnn, hx⟩, hfail⟩))
      | drwVxVyN x y n => exact .inr (.inl ⟨rfl, rfl, .inr (.inl ⟨x, y, n, hx⟩)⟩)
      | ldBVx x => exact .inr (.inl ⟨rfl, rfl, .inr (.inr (.inl ⟨x, hx⟩))⟩)
      | ldVxI x => exact .inr (.inl ⟨rfl, rfl, .inr (.inr (.inr ⟨x, hx⟩))⟩)
      | ldVxKk | addVxKk | ldINnn | ldFVx => exact hfail.elim
    · rw [hsame, hrun] at hhalt; cases hhalt

/-! ## The invariant (R12, R13, R14, R17, R70, R110) -/

/-- Taking an error leaves the latch consistent, when an unimplemented opcode is a word the decoder rejects. -/
theorem latchOk_takeError {e : MachineError} (s : State)
    (he : ∀ op, e = .unimplementedOpcode op → decodeWord op = none) : LatchOk (takeError e s) := by
  cases e with
  | unimplementedOpcode op => exact ⟨by simp [MachineError.kind], fun _ => he op rfl, fun hne => absurd rfl hne⟩
  | _ => exact ⟨by simp [MachineError.kind], by simp [MachineError.kind], fun _ => rfl⟩

theorem LatchOk.of_sameLatch {s t : State} (h : LatchOk s) (hsame : SameLatch s t) : LatchOk t := by
  obtain ⟨hhalt, herr, hinfo⟩ := hsame
  unfold LatchOk
  rw [hhalt, herr, hinfo]
  exact h

/-- An error taken in a state keeps the invariant. -/
theorem Inv.takeError {e : MachineError} {s : State} (h : Inv s)
    (he : ∀ op, e = .unimplementedOpcode op → decodeWord op = none) : Inv (takeError e s) := by
  obtain ⟨hmem, hpc, hi, hlen, hstk, -⟩ := h
  exact ⟨hmem, hpc, hi, hlen, hstk, latchOk_takeError s he⟩

/-- An instruction's failure is no unimplemented opcode. -/
theorem failure_ne_unimplementedOpcode (i : Instr) (op : Word) : failure i ≠ .unimplementedOpcode op := by
  cases i <;> exact fun h => by cases h

theorem Effect.latchOk {s t : State} {i : Instr} (h : Effect s i t) (hs : LatchOk s) : LatchOk t := by
  rcases h.failed_or_completed with ⟨-, u, rfl, -⟩ | ⟨-, hsame, -⟩
  · exact latchOk_takeError u fun op he => absurd he (failure_ne_unimplementedOpcode i op)
  · exact hs.of_sameLatch hsame

/-- `I` stays at most 0x0FFF (R12): `nnn` has 12 bits, and a glyph address is at most 5 * 255. -/
theorem Effect.index_le {s t : State} {i : Instr} (h : Effect s i t) (hs : s.i.toNat ≤ 0x0FFF) :
    t.i.toNat ≤ 0x0FFF := by
  rcases h.index with hi | ⟨nnn, -, hi⟩ | ⟨x, -, hi⟩
  · rwa [hi]
  · rw [hi, zext16_toNat]; have := nnn.isLt; omega
  · rw [hi, glyphAddress_toNat]; have := (readV s x).isLt; omega

/-- `pc` and the call stack stay in their bounds (R13, R14, R70): what is pushed is the address after a fetched word,
what is popped was saved. -/
theorem Effect.control_bounds {s t : State} {i : Instr} (hx : Executes s i) (h : Effect s i t)
    (hpc : s.pc.toNat ≤ 0x1000) (hlen : s.stk.length ≤ Config.stackDepth) (hstk : ∀ w ∈ s.stk, w.toNat ≤ 0x1000) :
    t.pc.toNat ≤ 0x1000 ∧ t.stk.length ≤ Config.stackDepth ∧ ∀ w ∈ t.stk, w.toNat ≤ 0x1000 := by
  have hnext : (nextPc s).toNat ≤ 0x1000 := by
    have hfit : s.pc.toNat + 1 < 4096 := hx.2.1
    rw [nextPc_of_executes hx]; omega
  rcases h.failed_or_completed with ⟨-, u, rfl, hupc, hustk, -⟩ | ⟨hok, -, htr⟩
  · rw [takeError_pc, takeError_stk, hupc, hustk]
    exact ⟨hpc, hlen, hstk⟩
  · cases i with
    | ret =>
      have hs : s.stk = t.stk ++ [t.pc] := htr
      rw [hs] at hlen hstk
      rw [List.length_append] at hlen
      exact ⟨hstk _ (by simp), Nat.le_of_add_right_le hlen, fun w hw => hstk w (List.mem_append_left _ hw)⟩
    | call nnn =>
      obtain ⟨htstk, htpc⟩ := htr
      have hroom : s.stk.length < 16 := Nat.not_le.mp hok
      rw [htstk, htpc, zext16_toNat, List.length_append]
      refine ⟨by have := nnn.isLt; omega, Nat.succ_le_of_lt hroom, fun w hw => ?_⟩
      rcases List.mem_append.mp hw with hw | hw
      · exact hstk w hw
      · rw [List.mem_singleton.mp hw]; exact hnext
    | _ =>
      rw [htr.1, htr.2]
      exact ⟨hnext, hlen, hstk⟩

/-- Settles O36: the fetch errors keep everything but the latch; an instruction keeps each part of the invariant. -/
theorem stepKeepsTheInvariant : Obligations.StepKeepsTheInvariant := by
  intro s t hinv h
  cases step_effect h with
  | halted => exact hinv
  | noFetch => exact hinv.takeError (by rintro op ⟨⟩)
  | undefined _ _ hd => exact hinv.takeError (by rintro op ⟨⟩; exact hd)
  | ran i _ hx he =>
    obtain ⟨hmem, hpc, hi, hlen, hstk, hlatch⟩ := hinv
    obtain ⟨hpc', hlen', hstk'⟩ := he.control_bounds hx hpc hlen hstk
    exact ⟨he.mem.wf (fun _ ⟨_, ha, _⟩ => ha) hmem, hpc', he.index_le hi, hlen', hstk', he.latchOk hlatch⟩

/-- Settles O34: memory lists nothing, the stack is empty, and no error is latched. -/
theorem invariantAtReset : Obligations.InvariantAtReset :=
  ⟨Memory.wf_nil, by decide, by decide, by decide, by simp [State.reset], by decide, by rintro ⟨⟩, fun _ => rfl⟩

/-- Settles O35: an over-long image is an error taken in the reset state; any other only replaces the memory. -/
theorem invariantAfterResetWithAnyImage : Obligations.InvariantAfterResetWithAnyImage := by
  intro image
  unfold resetWith
  split
  · exact Inv.takeError invariantAtReset (by rintro op ⟨⟩)
  · next hfits =>
    obtain ⟨hmem, hrest⟩ := invariantAtReset
    refine ⟨wf_loadImage image _ _ hmem ?_, hrest⟩
    simp only [Config.imageMax, Config.memSize, Config.loadBase] at hfits ⊢
    omega

end Sys2Proof.Machine
end

section
/-! The proofs of the statements about one step, one memory and one pixel (spec 30_encoding.md R53, 10_state.md R15,
20_memory.md R43), and about the two instructions whose laws say everything (40_control_transfer.md R71,
43_index_memory.md R100). -/

namespace Sys2Proof.Machine

/-! ## The step (R53) -/

/-- Settles O9: each case of a step answers a next state. -/
theorem everyStepAnswersANextState : Obligations.EveryStepAnswersANextState := by
  intro s
  rcases step_cases s with ⟨-, h⟩ | ⟨-, -, h⟩ | ⟨-, -, -, h⟩ | ⟨i, -, -, -, h⟩
  · exact ⟨_, h⟩
  · exact ⟨_, h⟩
  · exact ⟨_, h⟩
  · rw [h]; exact exec_next i s

/-- Settles O10: the premises say that the state executes the instruction. -/
theorem stepRunsTheDecodedInstruction : Obligations.StepRunsTheDecodedInstruction :=
  fun _ _ hrun hpc _ hdec => step_of_executes ⟨hrun, hpc, hdec⟩

/-- A step of a running machine that cannot fetch takes the error, and that is all (R53). -/
theorem step_of_noFetch {s : State} (hrun : s.halt = false) (hpc : 4096 ≤ s.pc.toNat + 1) :
    step s = .next (takeError .addressOutOfRange s) := by
  rcases step_cases s with ⟨hhalt, -⟩ | ⟨-, -, h⟩ | ⟨-, hfit, -⟩ | ⟨i, -, hfit, -⟩
  · rw [hrun] at hhalt; cases hhalt
  · exact h
  · exact absurd hfit (Nat.not_lt.mpr hpc)
  · exact absurd hfit (Nat.not_lt.mpr hpc)

/-- Settles O11: the step's one action is to take the error. -/
theorem fetchOutsideMemoryRaises : Obligations.FetchOutsideMemoryRaises :=
  fun s hrun hpc =>
    ⟨_, step_of_noFetch hrun (Nat.succ_le_succ hpc), latched_takeError _ _, takeError_frame _ s⟩

/-! ## Pixels and memory as data -/

/-- Settles O18: inside the grid the state after is the state before with one pixel exclusive-or the bit; outside it is
the state before with the error latched. -/
theorem fbXorFlipsOnePixel : Obligations.FbXorFlipsOnePixel := by
  refine ⟨fun col row bit s hc hr => ?_, fun col row bit s hout => ?_⟩
  · refine ⟨_, fbXor_inside hc hr bit s, ?_, fun c r hne => ?_, fun _ => rfl, rfl, rfl, rfl, fun _ => rfl, rfl, rfl,
      rfl⟩
    · rw [pixelAt_xor s hc hr]; simp
    · rw [pixelAt_xor s hc hr]; simp [hne]
  · exact ⟨_, fbXor_outside (by omega) bit s, latched_takeError _ _, pixelAt_takeError _ _⟩

/-- A canonical memory without its first entry is canonical. -/
theorem Memory.wf.tail {c : Host.Cell} {m : Memory} (h : Memory.wf (c :: m)) : m.wf :=
  ⟨(List.pairwise_cons.mp h.1).2, fun d hd => h.2 d (List.mem_cons_of_mem c hd)⟩

/-- An address that no entry lists reads as reset leaves it. -/
theorem Memory.cellAt_of_unlisted {m : Memory} {a : Nat} (h : ∀ c ∈ m, c.1 ≠ a) : m.cellAt a = unlisted a := by
  induction m with
  | nil => rfl
  | cons c rest ih =>
    rw [Memory.cellAt, if_neg (h c (List.mem_cons_self ..)).symm, ih fun d hd => h d (List.mem_cons_of_mem c hd)]

/-- Below its first entry a canonical memory lists nothing. -/
theorem Memory.wf.cellAt_of_lt {c : Host.Cell} {m : Memory} (h : Memory.wf (c :: m)) {a : Nat} (ha : a < c.1) :
    Memory.cellAt (c :: m) a = unlisted a := by
  refine Memory.cellAt_of_unlisted fun d hd => ?_
  rcases List.mem_cons.mp hd with rfl | hd
  · exact (Nat.ne_of_lt ha).symm
  · exact (Nat.ne_of_lt (Nat.lt_trans ha ((List.pairwise_cons.mp h.1).1 d hd))).symm

/-- A canonical memory's first entry reads as something else than an unlisted address. -/
theorem Memory.wf.cellAt_head {c : Host.Cell} {m : Memory} (h : Memory.wf (c :: m)) :
    Memory.cellAt (c :: m) c.1 = c.2 ∧ c.2 ≠ unlisted c.1 :=
  ⟨if_pos rfl, (h.2 c (List.mem_cons_self ..)).2⟩

/-- The first entry of a canonical memory stands at the lowest address that reads as something else than reset's
contents, so of two memories that read the same, neither begins before the other. -/
theorem Memory.wf.head_le {c d : Host.Cell} {m m' : Memory} (h : Memory.wf (c :: m)) (h' : Memory.wf (d :: m'))
    (heq : ∀ a, Memory.cellAt (c :: m) a = Memory.cellAt (d :: m') a) : d.1 ≤ c.1 := by
  obtain ⟨hread, hne⟩ := h.cellAt_head
  by_contra hlt
  exact hne (hread.symm.trans ((heq c.1).trans (h'.cellAt_of_lt (Nat.not_le.mp hlt))))

/-- A canonical memory that reads as reset's contents everywhere lists nothing. -/
theorem Memory.wf.eq_nil {m : Memory} (h : m.wf) (hread : ∀ a, m.cellAt a = unlisted a) : m = [] := by
  cases m with
  | nil => rfl
  | cons c rest =>
    obtain ⟨hc, hne⟩ := h.cellAt_head
    exact absurd (hc.symm.trans (hread c.1)) hne

/-- Settles O19, by induction on the first list: both begin with the same entry, and the rests read the same. -/
theorem canonicalMemoryIsUnique : Obligations.CanonicalMemoryIsUnique := by
  intro m
  induction m with
  | nil => exact fun m' _ h' heq => (h'.eq_nil fun a => (heq a).symm).symm
  | cons c rest ih =>
    intro m' h h' heq
    cases m' with
    | nil => exact h.eq_nil heq
    | cons d rest' =>
      have haddr : c.1 = d.1 := Nat.le_antisymm (h'.head_le h fun a => (heq a).symm) (h.head_le h' heq)
      have hbyte : c.2 = d.2 := by rw [← h.cellAt_head.1, ← h'.cellAt_head.1, heq, haddr]
      obtain rfl : c = d := Prod.ext haddr hbyte
      refine congrArg (c :: ·) (ih rest' h.tail h'.tail fun a => ?_)
      by_cases ha : a = c.1
      · have hunlisted : ∀ {m : Memory}, Memory.wf (c :: m) → m.cellAt a = unlisted a := fun hm =>
          Memory.cellAt_of_unlisted fun e he => ha ▸ (Nat.ne_of_lt ((List.pairwise_cons.mp hm.1).1 e he)).symm
        rw [hunlisted h, hunlisted h']
      · simpa only [Memory.cellAt, if_neg ha] using heq a

/-! ## CALL and LD F,Vx (R71, R100) -/

/-- Settles O21: with room the state after is the state before with the stack and `pc` replaced; without it is the state
before with the error latched. -/
theorem callPushesTheNextAddress : Obligations.CallPushesTheNextAddress := by
  refine ⟨fun s nnn hroom => ?_, fun s nnn hfull => ?_⟩
  · exact ⟨_, nextPc s, exec_call_of_lt nnn hroom, rfl, nextPc_toNat s, zext16_toNat nnn, setStk_setPc_frame s _ _⟩
  · obtain ⟨hpc, hv, hi, hstk, hmem, hfb⟩ := takeError_frame .stackOverflow s
    exact ⟨_, exec_call_of_ge nnn (Nat.le_of_eq hfull.symm), latched_takeError _ _, hpc, hstk, hv, hi, hmem, hfb⟩

/-- Settles O26: the state after is the state before with `I` and `pc` written. -/
theorem glyphPointerIsFiveTimesVx : Obligations.GlyphPointerIsFiveTimesVx :=
  fun x s => ⟨_, exec_ldFVx x s, glyphAddress_toNat _, setI_setPc_nextPc_frame s _⟩

end Sys2Proof.Machine
end

section
/-! The proofs of the statements about `LD B,Vx` and `LD Vx,[I]` (spec 43_index_memory.md R101, R102, 20_memory.md R41),
from what each comes to in bounds and near the top of memory. -/

namespace Sys2Proof.Machine

/-! ## LD B,Vx (R101) -/

/-- The bytes after the three digits are stored. -/
theorem cellAt_digitsStored (s : State) (x : RegIx) (a : Nat) :
    (digitsStored s x).cellAt a =
      if a = effAddr s 2 then ones (readV s x) else if a = effAddr s 1 then tens (readV s x)
        else if a = effAddr s 0 then hundreds (readV s x) else byteAt s a := by
  simp only [digitsStored, Memory.cellAt_setCell, byteAt]

/-- The addresses of two elements of an operand differ. -/
theorem effAddr_ne (s : State) {j k : Nat} (h : j ≠ k) : effAddr s j ≠ effAddr s k := by
  simp only [effAddr]; omega

/-- Each digit is at its address. -/
theorem cellAt_digitsStored_effAddr (s : State) (x : RegIx) :
    (digitsStored s x).cellAt (effAddr s 0) = hundreds (readV s x) ∧
      (digitsStored s x).cellAt (effAddr s 1) = tens (readV s x) ∧
      (digitsStored s x).cellAt (effAddr s 2) = ones (readV s x) := by
  refine ⟨?_, ?_, ?_⟩
  · rw [cellAt_digitsStored, if_neg (effAddr_ne s (by decide)), if_neg (effAddr_ne s (by decide)), if_pos rfl]
  · rw [cellAt_digitsStored, if_neg (effAddr_ne s (by decide)), if_pos rfl]
  · rw [cellAt_digitsStored, if_pos rfl]

theorem cellAt_digitsStored_of_ne {s : State} (x : RegIx) {a : Nat} (h0 : a ≠ effAddr s 0) (h1 : a ≠ effAddr s 1)
    (h2 : a ≠ effAddr s 2) : (digitsStored s x).cellAt a = byteAt s a := by
  rw [cellAt_digitsStored, if_neg h2, if_neg h1, if_neg h0]

/-- Settles O27: the state after is the state before with the digits stored and `pc` advanced. -/
theorem storeDigitsWritesThreeBytes : Obligations.StoreDigitsWritesThreeBytes := by
  intro x s h
  obtain ⟨h0, h1, h2⟩ := cellAt_digitsStored_effAddr s x
  exact ⟨_, exec_ldBVx_of_le x h, (congrArg BitVec.toNat h0).trans (hundreds_toNat _),
    (congrArg BitVec.toNat h1).trans (tens_toNat _), (congrArg BitVec.toNat h2).trans (ones_toNat _),
    fun a => cellAt_digitsStored_of_ne x, nextPc_toNat s, fun _ => rfl, rfl, rfl, fun _ _ => rfl, rfl, rfl, rfl⟩

/-- The bytes after `LD B,Vx` is cut short: the digits whose addresses are inside memory, the old byte elsewhere. -/
theorem byteAt_of_exec_ldBVx_of_gt {s : State} (x : RegIx) (h : 4093 < s.i.toNat) :
    ∃ m, exec (.ldBVx x) s = .next (takeError .addressOutOfRange (s.setMem m)) ∧
      (effAddr s 0 < 4096 → m.cellAt (effAddr s 0) = hundreds (readV s x)) ∧
      (effAddr s 1 < 4096 → m.cellAt (effAddr s 1) = tens (readV s x)) ∧
      ∀ a, (4096 ≤ a ∨ (a ≠ effAddr s 0 ∧ a ≠ effAddr s 1)) → m.cellAt a = s.mem.cellAt a := by
  obtain ⟨m, hexec, hm⟩ := exec_ldBVx_of_gt x h
  refine ⟨m, hexec, ?_⟩
  simp only [effAddr] at hm ⊢
  rcases hm with ⟨hi, rfl⟩ | ⟨hi, rfl⟩ | ⟨hi, rfl⟩
  · refine ⟨fun _ => by simp, fun _ => by simp, fun a ha => ?_⟩
    rw [Memory.cellAt_setCell, if_neg (by omega), Memory.cellAt_setCell, if_neg (by omega)]
  · refine ⟨fun _ => by simp, fun hout => by omega, fun a ha => ?_⟩
    rw [Memory.cellAt_setCell, if_neg (by omega)]
  · exact ⟨fun hout => by omega, fun hout => by omega, fun _ _ => rfl⟩

/-- Settles O28: the state after is the state before with the digits that fit stored and the error latched. -/
theorem storeDigitsCutShort : Obligations.StoreDigitsCutShort := by
  intro x s h
  obtain ⟨m, hexec, h0, h1, hframe⟩ := byteAt_of_exec_ldBVx_of_gt x h
  exact ⟨_, hexec, latched_takeError _ _, fun hin => (congrArg BitVec.toNat (h0 hin)).trans (hundreds_toNat _),
    fun hin => (congrArg BitVec.toNat (h1 hin)).trans (tens_toNat _), hframe, rfl, fun _ => rfl, rfl, rfl,
    fun _ _ => rfl⟩

/-! ## LD Vx,[I] (R102) -/

/-- What a register load keeps, as claims read it. -/
theorem OnlyV.same {s t : State} (h : OnlyV s t) : SameMem s t ∧ SameFb s t ∧ SameLatch s t := by
  obtain ⟨-, -, -, hmem, hfb, hlatch⟩ := h.fields
  exact ⟨fun a => by rw [byteAt, hmem, byteAt], fun c r => by rw [pixelAt, hfb, pixelAt], hlatch⟩

/-- Settles O29: in bounds the loop completes, and the state after is the loop's with `pc` advanced. -/
theorem loadRegistersFromMemory : Obligations.LoadRegistersFromMemory := by
  intro x s h
  rcases exec_ldVxI_cases x s with ⟨u, hexec, ho, -, hv⟩ | ⟨-, -, -, hout, -⟩
  · obtain ⟨hi, -, hstk, -⟩ := ho.fields
    obtain ⟨hmem, hfb, hlatch⟩ := ho.same
    exact ⟨_, hexec, fun j hj => (hv j).trans (if_pos hj), fun j hj => (hv j).trans (if_neg (not_le.mpr hj)),
      nextPc_toNat s, hi, hstk, hmem, hfb, hlatch⟩
  · omega

/-- Settles O30: past the top the loop is cut short, and the state after is the loop's with the error latched. -/
theorem loadRegistersCutShort : Obligations.LoadRegistersCutShort := by
  intro x s h
  rcases exec_ldVxI_cases x s with ⟨-, -, -, hin, -⟩ | ⟨u, hexec, ho, -, hv⟩
  · omega
  · obtain ⟨hi, hpc, hstk, -⟩ := ho.fields
    obtain ⟨hmem, hfb, -⟩ := ho.same
    exact ⟨_, hexec, latched_takeError _ _, fun j hj => (hv j).trans (if_pos (Nat.lt_succ_of_le hj)),
      fun j hj => (hv j).trans (if_neg (Nat.not_lt.mpr hj)), hpc, hi, hstk, hmem, hfb⟩

/-! ## The next fetch (R41, R133) -/

/-- The digit at position `k` of a byte, the hundreds first (R101). -/
theorem digitsStored_digit (s : State) (x : RegIx) {k : Nat} (hk : k < 3) :
    ((digitsStored s x).cellAt (effAddr s k)).toNat = (readV s x).toNat / 10 ^ (2 - k) % 10 := by
  obtain ⟨h0, h1, h2⟩ := cellAt_digitsStored_effAddr s x
  have hV := (readV s x).isLt
  match k, hk with
  | 0, _ => rw [h0, hundreds_toNat]; omega
  | 1, _ => rw [h1, tens_toNat]; rfl
  | 2, _ => rw [h2, ones_toNat]; omega

/-- Settles O47: the next fetch reads the two bytes after the stored instruction from the memory with the digits. -/
theorem storedDigitsAreFetchedNext : Obligations.StoredDigitsAreFetchedNext := by
  intro s t x hx hi hfit hstep
  rw [step_of_executes hx, exec_ldBVx_of_le x hi] at hstep
  obtain rfl := Host.Outcome.next.inj hstep
  have hpc : ((s.setMem (digitsStored s x)).setPc (nextPc s)).pc.toNat = s.pc.toNat + 2 := nextPc_of_executes hx
  have hold : ∀ a, (∀ k, k < 3 → effAddr s k ≠ a) → (digitsStored s x).cellAt a = byteAt s a := fun a hne =>
    cellAt_digitsStored_of_ne x (hne 0 (by decide)).symm (hne 1 (by decide)).symm (hne 2 (by decide)).symm
  refine ⟨(digitsStored s x).cellAt (s.pc.toNat + 2), (digitsStored s x).cellAt (s.pc.toNat + 3), ?_,
    fun k hk he => by rw [← he, digitsStored_digit s x hk], fun k hk he => by rw [← he, digitsStored_digit s x hk],
    hold _, hold _⟩
  rw [fetch_of_lt (by rw [hpc]; exact hfit), hpc]; rfl

end Sys2Proof.Machine
end

section
/-! The proofs of the statements about reset and the host's view (spec 70_reset_and_hazards.md R130, R131, 10_state.md
R17, R19, R20): what reset with an image comes to, short or over-long, and the codes of the error kinds. -/

namespace Sys2Proof.Machine

/-! ## STATUS (R6, R17) -/

theorem ErrorKind.code_eq_zero_iff (e : ErrorKind) : e.code = 0 ↔ e = .noError := by
  cases e <;> decide

theorem ErrorKind.code_eq_one_iff (e : ErrorKind) : e.code = 1 ↔ e = .unimplementedOpcode := by
  cases e <;> decide

/-- Six codes, and no seventh (R17). -/
theorem ErrorKind.code_ne_six_seven (e : ErrorKind) : e.code ≠ 6 ∧ e.code ≠ 7 := by
  cases e <;> decide

theorem ofBool_eq_one_iff (b : Bool) : BitVec.ofBool b = 1 ↔ b = true := by
  cases b <;> decide

/-- Settles O46: the codes of the kinds, and the latch clauses of the invariant read through them. -/
theorem statusShowsTheLatch : Obligations.StatusShowsTheLatch := by
  refine ⟨⟨rfl, rfl, rfl, rfl, rfl, rfl⟩, fun s => ?_, fun s hinv => ?_⟩
  · exact ⟨ofBool_eq_one_iff s.halt, rfl, rfl, s.err.code_ne_six_seven⟩
  · obtain ⟨-, -, -, -, -, hhalt, -, hinfo⟩ := hinv
    obtain ⟨h6, h7⟩ := s.err.code_ne_six_seven
    refine ⟨h6, h7, ?_, fun hne => hinfo ((ErrorKind.code_eq_one_iff _).not.mp hne)⟩
    exact (ErrorKind.code_eq_zero_iff _).not.trans (hhalt.symm.trans (ofBool_eq_one_iff s.halt).symm)

/-! ## Reset with an image (R130, R131) -/

theorem resetWith_of_le {image : List Byte} (h : image.length ≤ 3584) :
    resetWith image = State.reset.setMem (loadImage 0x200 image []) :=
  if_neg (Nat.not_lt.mpr h)

theorem resetWith_of_gt {image : List Byte} (h : 3584 < image.length) :
    resetWith image = takeError .imageTooLarge State.reset :=
  if_pos h

theorem readV_reset (j : RegIx) : readV State.reset j = 0 := by
  simp [readV, State.reset]

theorem pixelAt_reset (c r : Nat) : pixelAt State.reset c r = false := by
  by_cases hin : c < 64 ∧ r < 32
  · rw [pixelAt, FrameBuffer.pixel, dif_pos (show c < Config.fbCols ∧ r < Config.fbRows from hin)]
    simp [State.reset]
  · exact pixelAt_outside _ hin

/-- Above the glyph table memory is zero after reset (R19). -/
theorem byteAt_reset_of_ge {a : Nat} (h : 80 ≤ a) : byteAt State.reset a = 0 :=
  if_neg (Nat.not_lt.mpr h)

/-- The glyph table is there after reset (R20). -/
theorem byteAt_reset_of_lt {a : Nat} (h : a < 80) : byteAt State.reset a = fontByte a :=
  if_pos h

/-- Settles O51: reading off `State.reset`. -/
theorem resetValues : Obligations.ResetValues :=
  ⟨(resetWith_of_le (image := []) (Nat.zero_le _)).symm, rfl, readV_reset, rfl, rfl, pixelAt_reset,
    fun _ => byteAt_reset_of_ge, rfl, rfl, rfl⟩

/-- Outside the image, memory after reset is as reset with an empty image leaves it. -/
theorem byteAt_resetWith_of_outside (image : List Byte) {a : Nat} (h : a < 0x200 ∨ 0x200 + image.length ≤ a) :
    byteAt (resetWith image) a = byteAt State.reset a := by
  rcases Nat.lt_or_ge 3584 image.length with hlong | hfits
  · rw [resetWith_of_gt hlong, byteAt_takeError]
  · rw [resetWith_of_le hfits, byteAt, State.setMem_mem, cellAt_loadImage, dif_neg (by omega)]; rfl

/-- An image that fits is in memory from 0x200 upward. -/
theorem byteAt_resetWith_of_inside {image : List Byte} (hfits : image.length ≤ 3584) {k : Nat} (h : k < image.length) :
    byteAt (resetWith image) (0x200 + k) = image[k] := by
  rw [resetWith_of_le hfits, byteAt, State.setMem_mem, cellAt_loadImage, dif_pos (by omega)]
  simp only [Nat.add_sub_cancel_left]

/-- Settles O52: reset with an image that fits puts the memory with the image in it into the reset state. -/
theorem imageIsLoadedAtReset : Obligations.ImageIsLoadedAtReset := by
  intro image s hfits
  obtain ⟨hv, hi, hpc, hstk, hfb, hlatch⟩ := setMem_frame State.reset (loadImage 0x200 image [])
  rw [← resetWith_of_le hfits] at hv hi hpc hstk hfb hlatch
  exact ⟨fun k => byteAt_resetWith_of_inside hfits, fun a => byteAt_resetWith_of_outside image, hpc, hv, hi, hstk, hfb,
    hlatch⟩

/-- Settles O53: reset with an over-long image takes the error in the reset state, and a halted machine stays. -/
theorem overlongImageNeverRuns : Obligations.OverlongImageNeverRuns := by
  intro image s hlong
  rw [assertReset, resetWith_of_gt hlong]
  obtain ⟨hpc, hv, hi, hstk, hmem, hfb⟩ := takeError_frame .imageTooLarge State.reset
  exact ⟨latched_takeError _ _, rfl, hmem, hpc, hv, hi, hstk, hfb, (haltedMachineTakesNoStep _ rfl).2⟩

/-- Bits 2 to 0 of a glyph byte are masked off (R20). -/
theorem fontByte_toNat_mod (a : Nat) : (fontByte a).toNat % 8 = 0 := by
  have hmask : (0xF8 : Byte).toNat % 2 ^ 3 = 0 := by decide
  have hmod : (fontByte a).toNat % 2 ^ 3 = 0 := by
    rw [fontByte, BitVec.toNat_and, Nat.and_mod_two_pow, hmask, Nat.and_zero]
  exact hmod

/-- Settles O54: the glyph table is below the image. -/
theorem glyphTableIsPreloaded : Obligations.GlyphTableIsPreloaded := by
  intro image a ha
  refine ⟨?_, fontByte_toNat_mod a⟩
  rw [byteAt_resetWith_of_outside image (.inl (by omega)), byteAt_reset_of_lt ha]

end Sys2Proof.Machine
end

section
/-! The proofs of the statements about `DRW Vx,Vy,n` (spec 42_draw.md R90, R91): the sprite's pixels and its collision
read off `spriteFlip` and `spriteHit`, then the draw in bounds, cut short, and repeated. -/

namespace Sys2Proof.Machine

/-! ## The sprite's pixels and its collision -/

theorem spriteFlip_inside (s : State) (vx vy : Nat) {rows width row k : Nat} (hrow : row < rows) (hk : k < width) :
    spriteFlip s vx vy rows width (vx + k) (vy + row) = spriteAt s row k := by
  simp [spriteFlip, hrow, hk]

theorem spriteFlip_outside (s : State) {vx vy rows width c r : Nat}
    (h : ¬∃ row k, row < rows ∧ k < width ∧ c = vx + k ∧ r = vy + row) :
    spriteFlip s vx vy rows width c r = false := by
  have hrect : ¬(vy ≤ r ∧ r < vy + rows ∧ vx ≤ c ∧ c < vx + width) := fun ⟨hvy, hr, hvx, hc⟩ =>
    h ⟨r - vy, c - vx, by omega, by omega, by omega, by omega⟩
  rw [spriteFlip, decide_eq_false hrect, Bool.false_and]

theorem spriteHit_iff (s : State) (vx vy rows : Nat) :
    spriteHit s vx vy rows = true ↔
      ∃ row k, row < rows ∧ k < 8 ∧ pixelAt s (vx + k) (vy + row) = true ∧ spriteAt s row k = true := by
  simp only [spriteHit, rowHit, spriteAt, List.any_eq_true, List.mem_range, Bool.and_eq_true]
  constructor
  · rintro ⟨row, hrow, k, hk, hpixel, hbit⟩
    exact ⟨row, k, hrow, hk, hpixel, hbit⟩
  · rintro ⟨row, k, hrow, hk, hpixel, hbit⟩
    exact ⟨row, hrow, k, hk, hpixel, hbit⟩

/-- The rows drawn when an access fails (R90). -/
theorem lt_drawnRows_iff (s : State) (vx vy : Nat) {n row : Nat} (hn : 0 < n) :
    row < drawnRows s vx vy n ↔
      row < (if vx ≤ 56 then n else 1) ∧ s.i.toNat + row < 4096 ∧ vy + row < 32 := by
  unfold drawnRows
  split <;> omega

theorem lt_drawnWidth_iff (vx k : Nat) : k < drawnWidth vx ↔ k < 8 ∧ vx + k < 64 := by
  unfold drawnWidth; omega

/-! ## The draw in bounds and out of them -/

theorem exec_drwVxVyN_of_fits {s : State} {x y : RegIx} {n : Fin 16} (h : DrawFits s x y n) :
    ∃ u, exec (.drwVxVyN x y n) s =
        .next ((u.setV 15 (collisionByte (spriteHit s (readV s x).toNat (readV s y).toNat n))).setPc (nextPc s)) ∧
      Flipped s u (spriteFlip s (readV s x).toNat (readV s y).toNat n 8) := by
  rcases exec_drwVxVyN_cases x y n s with ⟨u, hexec, hf, -⟩ | ⟨-, -, -, hn, hout⟩
  · exact ⟨u, hexec, hf⟩
  · exact absurd (drawFits_iff.mp h hn) hout

theorem exec_drwVxVyN_of_not_fits {s : State} {x y : RegIx} {n : Fin 16} (h : ¬DrawFits s x y n) :
    ∃ u, exec (.drwVxVyN x y n) s = .next (takeError .addressOutOfRange u) ∧ 0 < n.val ∧
      Flipped s u (spriteFlip s (readV s x).toNat (readV s y).toNat
        (drawnRows s (readV s x).toNat (readV s y).toNat n) (drawnWidth (readV s x).toNat)) := by
  rcases exec_drwVxVyN_cases x y n s with ⟨-, -, -, hfits⟩ | ⟨u, hexec, hf, hn, -⟩
  · exact absurd (drawFits_iff.mpr hfits) h
  · exact ⟨u, hexec, hn, hf⟩

theorem Flipped.sameMem {s t : State} {flip : Nat → Nat → Bool} (h : Flipped s t flip) : SameMem s t :=
  fun a => by rw [h.1, byteAt_setFb]

theorem collisionByte_eq_one_iff (hit : Bool) : collisionByte hit = 1 ↔ hit = true := by
  cases hit <;> decide

/-- Settles O31: the pixels are the flipped ones, and `VF` is the collision of the sprite. -/
theorem drawFlipsTheSprite : Obligations.DrawFlipsTheSprite := by
  intro x y n s hfits
  obtain ⟨u, hexec, hf⟩ := exec_drwVxVyN_of_fits hfits
  obtain ⟨-, hi, -, hstk, -, hlatch⟩ := hf.fields
  refine ⟨_, hexec, fun row k hrow hk => ?_, fun c r hout => ?_, fun hhit => ?_, fun hmiss => ?_, fun j hj => ?_,
    nextPc_toNat s, hi, hstk, hf.sameMem, hlatch⟩
  · rw [pixelAt_setPc, pixelAt_setV, hf.2, spriteFlip_inside s _ _ hrow hk]; rfl
  · rw [pixelAt_setPc, pixelAt_setV, hf.2, spriteFlip_outside, Bool.xor_false]
    rintro ⟨row, k, hrow, hk, rfl, rfl⟩
    exact hout (by omega)
  · rw [readV_setPc, readV_setV, if_pos rfl, (spriteHit_iff ..).mpr hhit]; rfl
  · rw [readV_setPc, readV_setV, if_pos rfl, Bool.eq_false_of_not_eq_true ((spriteHit_iff ..).not.mpr hmiss)]; rfl
  · rw [readV_setPc, readV_setV, if_neg hj, hf.readV]

/-- Settles O32: the drawn rows and columns are those of the statement, and the error is taken with nothing else
written. -/
theorem drawCutShort : Obligations.DrawCutShort := by
  intro x y n s hout
  obtain ⟨u, hexec, hn, hf⟩ := exec_drwVxVyN_of_not_fits hout
  obtain ⟨-, hi, hpc, hstk, -⟩ := hf.fields
  refine ⟨_, hexec, latched_takeError _ _, fun row k hrow hk hmem hgrid hcol => ?_, fun c r hno => ?_, hf.readV, hpc,
    hi, hstk, hf.sameMem⟩
  · rw [pixelAt_takeError, hf.2, spriteFlip_inside s _ _ ((lt_drawnRows_iff s _ _ hn).mpr ⟨hrow, hmem, hgrid⟩)
      ((lt_drawnWidth_iff _ _).mpr ⟨hk, hcol⟩)]
  · rw [pixelAt_takeError, hf.2, spriteFlip_outside, Bool.xor_false]
    rintro ⟨row, k, hrow, hk, hc, hr⟩
    obtain ⟨hrow, hmem, -⟩ := (lt_drawnRows_iff s _ _ hn).mp hrow
    exact hno ⟨row, k, hrow, ((lt_drawnWidth_iff _ _).mp hk).1, hmem, hc, hr⟩

/-! ## Drawing twice -/

/-- States with the same `I` and memory hold the same sprite. -/
theorem spriteAt_congr {s s' : State} (hi : s'.i = s.i) (hmem : SameMem s s') (row k : Nat) :
    spriteAt s' row k = spriteAt s row k := by
  rw [spriteAt, spriteAt, hmem, effAddr, effAddr, hi]

/-- The pixels after a draw inside its bounds. -/
theorem pixelAt_of_draw {s t : State} {x y : RegIx} {n : Fin 16} (hfits : DrawFits s x y n)
    (h : exec (.drwVxVyN x y n) s = .next t) (c r : Nat) :
    pixelAt t c r = (pixelAt s c r ^^ spriteFlip s (readV s x).toNat (readV s y).toNat n 8 c r) := by
  obtain ⟨u, hexec, hf⟩ := exec_drwVxVyN_of_fits hfits
  obtain rfl := Host.Outcome.next.inj (hexec.symm.trans h)
  exact hf.2 c r

/-- `VF` after a draw inside its bounds. -/
theorem readV_fifteen_of_draw {s t : State} {x y : RegIx} {n : Fin 16} (hfits : DrawFits s x y n)
    (h : exec (.drwVxVyN x y n) s = .next t) :
    readV t 15 = collisionByte (spriteHit s (readV s x).toNat (readV s y).toNat n) := by
  obtain ⟨u, hexec, -⟩ := exec_drwVxVyN_of_fits hfits
  obtain rfl := Host.Outcome.next.inj (hexec.symm.trans h)
  rw [readV_setPc, readV_setV, if_pos rfl]

/-- Settles O33: both draws flip the same pixels, so the second undoes the first; it meets a set pixel where the first
set one. -/
theorem drawTwiceRestores : Obligations.DrawTwiceRestores := by
  intro x y x' y' n s s₁ s₂ t hfits hfirst hfb hi hmem hx hy hsecond
  have hfits₂ : DrawFits s₂ x' y' n := by rwa [DrawFits, hi, hx, hy]
  have hflip : ∀ c r, spriteFlip s₂ (readV s x).toNat (readV s y).toNat n 8 c r =
      spriteFlip s (readV s x).toNat (readV s y).toNat n 8 c r := fun c r => by
    rw [spriteFlip, spriteFlip, spriteAt_congr hi hmem]
  have hpix₂ : ∀ c r, pixelAt s₂ c r =
      (pixelAt s c r ^^ spriteFlip s (readV s x).toNat (readV s y).toNat n 8 c r) := fun c r => by
    rw [pixelAt, hfb, ← pixelAt, pixelAt_of_draw hfits hfirst]
  refine ⟨fun c r => ?_, ?_⟩
  · rw [pixelAt_of_draw hfits₂ hsecond, hx, hy, hflip, hpix₂, Bool.xor_assoc, Bool.xor_self, Bool.xor_false]
  · rw [readV_fifteen_of_draw hfits₂ hsecond, hx, hy, collisionByte_eq_one_iff, spriteHit_iff]
    refine exists_congr fun row => exists_congr fun k => and_congr_right fun hrow => and_congr_right fun hk => ?_
    rw [hpix₂, spriteFlip_inside s _ _ hrow hk, spriteAt_congr hi hmem]
    cases spriteAt s row k <;> simp

end Sys2Proof.Machine
end

section
/-! The proofs of the two noninterference statements (spec 10_state.md R11, R14, R16): a state with another frame buffer
and another call stack put in steps like the state itself, unless the instruction is `RET`, `CALL` or `DRW`, which are
looked at one by one. -/

namespace Sys2Proof.Machine

/-- The state with another frame buffer and another call stack. -/
def swapFbStk (f : FrameBuffer) (l : List Word) (s : State) : State := (s.setFb f).setStk l

/-- The instructions that look at the frame buffer or the call stack. -/
def SeesFbOrStk (i : Instr) : Prop := i = .ret ∨ (∃ nnn, i = .call nnn) ∨ ∃ x y n, i = .drwVxVyN x y n

/-! ## The other instructions -/

/-- Two register loads with the same registers, from states that differ in frame buffer and stack only; and a register
load keeps both. -/
theorem OnlyV.eq_swapFbStk {f : FrameBuffer} {l : List Word} {s u u' : State} (h : OnlyV s u)
    (h' : OnlyV (swapFbStk f l s) u') (hv : ∀ j, readV u' j = readV u j) :
    u' = swapFbStk f l u ∧ u.stk = s.stk ∧ u.fb = s.fb := by
  have hvec : u'.v = u.v := Vector.ext fun j hj => hv ⟨j, hj⟩
  obtain ⟨-, -, hstk, -, hfb, -⟩ := h.fields
  refine ⟨?_, hstk, hfb⟩
  calc u' = { swapFbStk f l s with v := u'.v } := h'
    _ = swapFbStk f l { s with v := u.v } := by rw [hvec]; rfl
    _ = swapFbStk f l u := congrArg (swapFbStk f l) h.symm

/-- The memory after `LD B,Vx` is cut short. -/
def digitsCut (s : State) (x : RegIx) : Memory :=
  if s.i.toNat = 4094 then (s.mem.setCell (effAddr s 0) (hundreds (readV s x))).setCell (effAddr s 1) (tens (readV s x))
  else if s.i.toNat = 4095 then s.mem.setCell (effAddr s 0) (hundreds (readV s x)) else s.mem

theorem exec_ldBVx_of_gt_eq {s : State} (x : RegIx) (h : 4093 < s.i.toNat) :
    exec (.ldBVx x) s = .next (takeError .addressOutOfRange (s.setMem (digitsCut s x))) := by
  obtain ⟨m, hexec, hm⟩ := exec_ldBVx_of_gt x h
  rw [hexec, digitsCut]
  rcases hm with ⟨hi, rfl⟩ | ⟨hi, rfl⟩ | ⟨hi, rfl⟩
  · rw [if_pos hi]
  · rw [if_neg (by omega), if_pos hi]
  · rw [if_neg (by omega), if_neg (by omega)]

/-- An instruction that looks at neither does the same with both swapped, and keeps both. -/
theorem exec_swapFbStk {i : Instr} {s t : State} (f : FrameBuffer) (l : List Word) (hi : ¬SeesFbOrStk i)
    (h : exec i s = .next t) :
    exec i (swapFbStk f l s) = .next (swapFbStk f l t) ∧ t.stk = s.stk ∧ t.fb = s.fb := by
  cases i with
  | ret => exact absurd (.inl rfl) hi
  | call nnn => exact absurd (.inr (.inl ⟨nnn, rfl⟩)) hi
  | drwVxVyN x y n => exact absurd (.inr (.inr ⟨x, y, n, rfl⟩)) hi
  | ldVxKk | addVxKk | ldINnn | ldFVx =>
    obtain rfl := Host.Outcome.next.inj h
    exact ⟨rfl, rfl, rfl⟩
  | ldBVx x =>
    by_cases hfit : s.i.toNat ≤ 4093
    · obtain rfl := Host.Outcome.next.inj ((exec_ldBVx_of_le x hfit).symm.trans h)
      exact ⟨exec_ldBVx_of_le (s := swapFbStk f l s) x hfit, rfl, rfl⟩
    · have hcut : 4093 < s.i.toNat := Nat.not_le.mp hfit
      obtain rfl := Host.Outcome.next.inj ((exec_ldBVx_of_gt_eq x hcut).symm.trans h)
      exact ⟨exec_ldBVx_of_gt_eq (s := swapFbStk f l s) x hcut, rfl, rfl⟩
  | ldVxI x =>
    rcases exec_ldVxI_cases x s with ⟨u, hexec, ho, hin, hv⟩ | ⟨u, hexec, ho, hout, hv⟩ <;>
      rcases exec_ldVxI_cases x (swapFbStk f l s) with ⟨u', hexec', ho', hin', hv'⟩ | ⟨u', hexec', ho', hout', hv'⟩
    · obtain ⟨rfl, hkeeps⟩ := ho.eq_swapFbStk ho' fun j => (hv' j).trans (hv j).symm
      obtain rfl := Host.Outcome.next.inj (hexec.symm.trans h)
      exact ⟨hexec', hkeeps⟩
    · exact absurd hin hout'
    · exact absurd hin' hout
    · obtain ⟨rfl, hkeeps⟩ := ho.eq_swapFbStk ho' fun j => (hv' j).trans (hv j).symm
      obtain rfl := Host.Outcome.next.inj (hexec.symm.trans h)
      exact ⟨hexec', hkeeps⟩

/-- A step does the same with both swapped and keeps both, or it executes an instruction that looks at them. -/
theorem step_swapFbStk {s t t' : State} (f : FrameBuffer) (l : List Word) (h : step s = .next t)
    (h' : step (swapFbStk f l s) = .next t') :
    (t' = swapFbStk f l t ∧ t.stk = s.stk ∧ t.fb = s.fb) ∨
      ∃ i, SeesFbOrStk i ∧ Executes s i ∧ exec i s = .next t ∧ exec i (swapFbStk f l s) = .next t' := by
  cases step_effect h with
  | halted hh =>
    rw [step_of_halt (s := swapFbStk f l s) hh] at h'
    exact .inl ⟨(Host.Outcome.next.inj h').symm, rfl, rfl⟩
  | noFetch hrun hp =>
    rw [step_of_noFetch (s := swapFbStk f l s) hrun hp] at h'
    exact .inl ⟨(Host.Outcome.next.inj h').symm, rfl, rfl⟩
  | undefined hrun hp hd =>
    rw [step_of_undefined (s := swapFbStk f l s) hrun hp hd] at h'
    exact .inl ⟨(Host.Outcome.next.inj h').symm, rfl, rfl⟩
  | ran i _ hx _ =>
    rw [step_of_executes hx] at h
    rw [step_of_executes (s := swapFbStk f l s) hx] at h'
    by_cases hi : SeesFbOrStk i
    · exact .inr ⟨i, hi, hx, h, h'⟩
    · obtain ⟨hswap, hkeeps⟩ := exec_swapFbStk f l hi h
      exact .inl ⟨Host.Outcome.next.inj (h'.symm.trans hswap), hkeeps⟩

/-! ## CALL, RET and DRW -/

/-- A control transfer does the same with another frame buffer. -/
theorem exec_setFb_of_control {i : Instr} {s t : State} (f : FrameBuffer) (hi : i = .ret ∨ ∃ nnn, i = .call nnn)
    (h : exec i s = .next t) : exec i (s.setFb f) = .next (t.setFb f) := by
  cases exec_effect h with
  | ret below top hs => exact exec_ret_of_append (s := s.setFb f) hs
  | retEmpty hs => exact exec_ret_of_nil (s := s.setFb f) hs
  | call nnn hs => exact exec_call_of_lt (s := s.setFb f) nnn hs
  | callFull nnn hs => exact exec_call_of_ge (s := s.setFb f) nnn hs
  | _ => simp at hi

/-- What a `DRW` does in two states that differ in frame buffer and stack only, but for the pixels and `VF`; and for
these too when the frame buffers are the same. -/
theorem exec_drwVxVyN_swapFbStk {x y : RegIx} {n : Fin 16} {s t t' : State} {f : FrameBuffer} {l : List Word}
    (h : exec (.drwVxVyN x y n) s = .next t) (h' : exec (.drwVxVyN x y n) (swapFbStk f l s) = .next t') :
    t'.pc = t.pc ∧ t'.i = t.i ∧ t.stk = s.stk ∧ t'.stk = l ∧ SameMem t t' ∧ SameLatch t t' ∧
      (∀ j, j ≠ 15 → readV t' j = readV t j) ∧ (f = s.fb → SameV t t' ∧ SameFb t t') := by
  by_cases hfits : DrawFits s x y n
  · obtain ⟨u, hexec, hu, hpix⟩ := exec_drwVxVyN_of_fits hfits
    obtain ⟨u', hexec', hu', hpix'⟩ := exec_drwVxVyN_of_fits (s := swapFbStk f l s) hfits
    obtain rfl := Host.Outcome.next.inj (hexec.symm.trans h)
    obtain rfl := Host.Outcome.next.inj (hexec'.symm.trans h')
    rw [hu] at hpix ⊢
    rw [hu'] at hpix' ⊢
    refine ⟨rfl, rfl, rfl, rfl, fun _ => rfl, ⟨rfl, rfl, rfl⟩, fun j hj => ?_, ?_⟩
    · rw [readV_setPc, readV_setPc, readV_setV, readV_setV, if_neg hj, if_neg hj]; rfl
    · rintro rfl
      exact ⟨fun _ => rfl, fun c r => (hpix' c r).trans (hpix c r).symm⟩
  · obtain ⟨u, hexec, -, hu, hpix⟩ := exec_drwVxVyN_of_not_fits hfits
    obtain ⟨u', hexec', -, hu', hpix'⟩ := exec_drwVxVyN_of_not_fits (s := swapFbStk f l s) hfits
    obtain rfl := Host.Outcome.next.inj (hexec.symm.trans h)
    obtain rfl := Host.Outcome.next.inj (hexec'.symm.trans h')
    rw [hu] at hpix ⊢
    rw [hu'] at hpix' ⊢
    refine ⟨rfl, rfl, rfl, rfl, fun _ => rfl, ⟨rfl, rfl, rfl⟩, fun _ _ => rfl, ?_⟩
    rintro rfl
    exact ⟨fun _ => rfl, fun c r => (hpix' c r).trans (hpix c r).symm⟩

/-! ## The two statements -/

/-- Settles O48: a step that looks at neither swaps with the frame buffer; `RET` and `CALL` do too; `DRW` keeps
the rest. -/
theorem pixelsReachOnlyTheCollisionFlag : Obligations.PixelsReachOnlyTheCollisionFlag := by
  intro s f t t' h h'
  rcases step_swapFbStk f s.stk h h' with ⟨rfl, hstk, -⟩ | ⟨i, hi, hx, hexec, hexec'⟩
  · exact ⟨rfl, rfl, hstk.symm, fun _ => rfl, ⟨rfl, rfl, rfl⟩, fun _ _ => rfl, fun _ => rfl⟩
  · rcases or_assoc.mpr hi with hcontrol | ⟨x, y, n, rfl⟩
    · obtain rfl := Host.Outcome.next.inj (hexec'.symm.trans (exec_setFb_of_control (s := s) f hcontrol hexec))
      exact ⟨rfl, rfl, rfl, fun _ => rfl, ⟨rfl, rfl, rfl⟩, fun _ _ => rfl, fun _ => rfl⟩
    · obtain ⟨hpc, hindex, hstk, hstk', hmem, hlatch, hv, -⟩ := exec_drwVxVyN_swapFbStk hexec hexec'
      exact ⟨hpc, hindex, hstk'.trans hstk.symm, hmem, hlatch, hv, fun hno => absurd ⟨x, y, n, hx⟩ hno⟩

/-- Settles O49: a step that looks at neither swaps with the stack; `CALL` looks at its length alone; `DRW` keeps it. -/
theorem savedAddressesReachOnlyRet : Obligations.SavedAddressesReachOnlyRet := by
  intro s l t t' hlen hret h h'
  rcases step_swapFbStk s.fb l h h' with ⟨rfl, hstk, hfb⟩ | ⟨i, rfl | ⟨nnn, rfl⟩ | ⟨x, y, n, rfl⟩, hx, hexec, hexec'⟩
  · exact ⟨rfl, rfl, fun _ => rfl, fun _ => rfl, fun c r => by simp only [pixelAt, hfb]; rfl, ⟨rfl, rfl, rfl⟩,
      hlen.trans (congrArg List.length hstk.symm)⟩
  · exact absurd hx hret
  · by_cases hroom : s.stk.length < 16
    · have hroom' : l.length < 16 := hlen ▸ hroom
      obtain rfl := Host.Outcome.next.inj ((exec_call_of_lt nnn hroom).symm.trans hexec)
      obtain rfl := Host.Outcome.next.inj
        ((exec_call_of_lt (s := swapFbStk s.fb l s) nnn hroom').symm.trans hexec')
      exact ⟨rfl, rfl, fun _ => rfl, fun _ => rfl, fun _ _ => rfl, ⟨rfl, rfl, rfl⟩,
        by simp [swapFbStk, hlen]⟩
    · have hfull : 16 ≤ s.stk.length := Nat.not_lt.mp hroom
      have hfull' : 16 ≤ l.length := hlen ▸ hfull
      obtain rfl := Host.Outcome.next.inj ((exec_call_of_ge nnn hfull).symm.trans hexec)
      obtain rfl := Host.Outcome.next.inj
        ((exec_call_of_ge (s := swapFbStk s.fb l s) nnn hfull').symm.trans hexec')
      exact ⟨rfl, rfl, fun _ => rfl, fun _ => rfl, fun _ _ => rfl, ⟨rfl, rfl, rfl⟩, hlen⟩
  · obtain ⟨hpc, hindex, hstk, hstk', hmem, hlatch, -, hsame⟩ := exec_drwVxVyN_swapFbStk hexec hexec'
    obtain ⟨hv, hfb⟩ := hsame rfl
    exact ⟨hpc, hindex, hv, hmem, hfb, hlatch, by rw [hstk', hstk, hlen]⟩

end Sys2Proof.Machine
end

section
/-! The proofs of the two statements about runs (spec 40_control_transfer.md R72, 60_exceptions.md R124): while a
routine runs, the stack it was called with stays below; and every step of a running machine that raises nothing lowers
a rank of the call stack and `pc`. -/

namespace Sys2Proof.Machine

theorem step_stepState (s : State) : step s = .next (stepState s) := by
  obtain ⟨t, h⟩ := everyStepAnswersANextState s
  rw [h, stepState_of_step h]

/-! ## The stack below (R72) -/

/-- A step keeps what is at the bottom of the stack, unless it is a `RET` with nothing above. -/
theorem bottom_kept_of_step {b : List Word} {s t : State} (h : step s = .next t) (hb : b <+: s.stk)
    (hret : Executes s .ret → s.stk.length ≠ b.length) : b <+: t.stk := by
  rcases onlyCallAndRetTouchTheStack s t h with hstk | ⟨nnn, saved, -, hstk, -⟩ | ⟨hx, hstk⟩
  · rwa [hstk]
  · rw [hstk]; exact hb.trans (List.prefix_append ..)
  · rcases List.prefix_concat_iff.mp (hstk ▸ hb) with rfl | hbelow
    · exact absurd (congrArg List.length hstk) (hret hx)
    · exact hbelow

/-- A run keeps what is at the bottom of the stack as long as no `RET` executes with nothing above. -/
theorem bottom_kept_of_run {b : List Word} {s : State} (hb : b <+: s.stk) (n : Nat)
    (hret : ∀ m < n, Executes (runFor m s) .ret → (runFor m s).stk.length ≠ b.length) : b <+: (runFor n s).stk := by
  induction n with
  | zero => exact hb
  | succ n ih =>
    rw [runFor_succ]
    exact bottom_kept_of_step (step_stepState _) (ih fun m hm => hret m (Nat.lt_succ_of_lt hm))
      (hret n (Nat.lt_succ_self n))

/-- Settles O22: from the pushed address on, the stack keeps it at its place, so the `RET` at that depth pops it. -/
theorem callReturnRoundTrip : Obligations.CallReturnRoundTrip := by
  intro s nnn n hcall hroom hn hret hdepth hfirst
  obtain ⟨n, rfl⟩ : ∃ k, n = k + 1 := ⟨n - 1, by omega⟩
  have hpushed : (stepState s).stk = s.stk ++ [nextPc s] := by
    rw [stepState_of_step ((step_of_executes hcall).trans (exec_call_of_lt nnn hroom))]; rfl
  have hlen : (s.stk ++ [nextPc s]).length = s.stk.length + 1 := List.length_append
  have hkept : s.stk ++ [nextPc s] <+: (runFor (n + 1) s).stk :=
    bottom_kept_of_run (s := stepState s) (hpushed ▸ List.prefix_rfl) n fun m hm hx => by
      rw [hlen]; exact hfirst (m + 1) (Nat.succ_pos m) (Nat.succ_lt_succ hm) hx
  have hstk : (runFor (n + 1) s).stk = s.stk ++ [nextPc s] := (hkept.eq_of_length (hlen.trans hdepth.symm)).symm
  rw [runFor_succ, stepState_of_step ((step_of_executes hret).trans (exec_ret_of_append hstk))]
  exact ⟨nextPc_of_executes hcall, rfl⟩

/-! ## The rank (R124)

The saved addresses and then `pc`, bottom first, are read as a number in base 65537 whose digit at each level is how far
the address is from 65536: a `CALL` lowers a digit and starts the next one, a `RET` drops the last. -/

/-- How far an address is from 65536. -/
def remaining (w : Word) : Nat := 65536 - w.toNat

/-- The number of a list of addresses, the first at the power `d`. -/
def rank : Nat → List Word → Nat
  | _, [] => 0
  | d, w :: l => remaining w * 65537 ^ d + rank (d - 1) l

theorem rank_append (d : Nat) (p q : List Word) : rank d (p ++ q) = rank d p + rank (d - p.length) q := by
  induction p generalizing d with
  | nil => simp [rank]
  | cons w p ih =>
    rw [List.cons_append, rank, rank, ih, List.length_cons, Nat.add_comm p.length 1, Nat.sub_add_eq, Nat.add_assoc]

theorem rank_singleton (d : Nat) (w : Word) : rank d [w] = remaining w * 65537 ^ d := rfl

theorem rank_singleton_pos (d : Nat) (w : Word) : 0 < rank d [w] := by
  have hw := w.isLt
  exact Nat.mul_pos (by unfold remaining; omega) (Nat.pow_pos (by decide))

theorem remaining_lt {w u : Word} (h : w.toNat < u.toNat) : remaining u < remaining w := by
  have hu := u.isLt
  unfold remaining; omega

/-- A later address has the lower rank. -/
theorem rank_singleton_lt (d : Nat) {w u : Word} (h : w.toNat < u.toNat) : rank d [u] < rank d [w] :=
  Nat.mul_lt_mul_of_pos_right (remaining_lt h) (Nat.pow_pos (by decide))

/-- A later address outweighs any address put above it. -/
theorem rank_pair_lt (d : Nat) {w u : Word} (v : Word) (h : w.toNat < u.toNat) :
    rank (d + 1) [u, v] < rank (d + 1) [w] := by
  have hv : remaining v < 65537 := Nat.lt_succ_of_le (Nat.sub_le ..)
  calc rank (d + 1) [u, v] = remaining u * 65537 ^ (d + 1) + remaining v * 65537 ^ d := rfl
    _ < remaining u * 65537 ^ (d + 1) + 65537 * 65537 ^ d :=
      Nat.add_lt_add_left (Nat.mul_lt_mul_of_pos_right hv (Nat.pow_pos (by decide))) _
    _ = (remaining u + 1) * 65537 ^ (d + 1) := by rw [Nat.add_mul, Nat.one_mul, Nat.pow_succ']
    _ ≤ rank (d + 1) [w] := Nat.mul_le_mul_right _ (remaining_lt h)

/-- The rank of a state: the call stack with `pc` on top. -/
def stateRank (s : State) : Nat := rank 16 (s.stk ++ [s.pc])

/-- A step of a running machine that raises nothing lowers the rank. -/
theorem stateRank_lt_of_step {s t : State} (hrun : s.halt = false) (h : step s = .next t) (hrun' : t.halt = false) :
    stateRank t < stateRank s := by
  unfold stateRank
  cases step_effect h with
  | halted hh => rw [hrun] at hh; cases hh
  | noFetch | undefined => cases hrun'
  | ran i _ hx he =>
    have hnext : s.pc.toNat < (nextPc s).toNat := by rw [nextPc_of_executes hx]; omega
    rcases he.failed_or_completed with ⟨-, u, rfl, -⟩ | ⟨hok, -, htr⟩
    · cases hrun'
    · cases i with
      | ret =>
        rw [show s.stk = t.stk ++ [t.pc] from htr, rank_append _ (t.stk ++ [t.pc])]
        exact Nat.lt_add_of_pos_right (rank_singleton_pos ..)
      | call nnn =>
        obtain ⟨hstk, hpc⟩ := htr
        obtain ⟨d, hd⟩ : ∃ d, 16 - s.stk.length = d + 1 :=
          ⟨15 - s.stk.length, by have hroom : ¬16 ≤ s.stk.length := hok; omega⟩
        rw [hstk, hpc, List.append_assoc, rank_append _ s.stk, rank_append _ s.stk, hd]
        exact Nat.add_lt_add_left (rank_pair_lt d _ hnext) _
      | _ =>
        rw [htr.1, htr.2, rank_append, rank_append]
        exact Nat.add_lt_add_left (rank_singleton_lt _ hnext) _

/-- From every state some number of steps halts, by induction on the rank. -/
theorem exists_halted (s : State) : ∃ n, (runFor n s).halt = true := by
  induction hr : stateRank s using Nat.strong_induction_on generalizing s with
  | _ r ih =>
    cases hrun : s.halt with
    | true => exact ⟨0, hrun⟩
    | false =>
      cases hrun' : (stepState s).halt with
      | true => exact ⟨1, hrun'⟩
      | false =>
        obtain ⟨n, hn⟩ := ih _ (hr ▸ stateRank_lt_of_step hrun (step_stepState s) hrun') (stepState s) rfl
        exact ⟨n + 1, hn⟩

/-- Settles O50: a run halts, and its end is the first halted state. -/
theorem everyRunHalts : Obligations.EveryRunHalts := by
  refine ⟨exists_halted, fun image => ?_⟩
  have hex := exists_halted (resetWith image)
  exact ⟨Nat.find hex, Nat.find_spec hex, fun m hm => Bool.eq_false_of_not_eq_true (Nat.find_min hex hm)⟩

end Sys2Proof.Machine
end

section
/-! The proof of the statement about written lines (spec 30_encoding.md R59): what cutting a text at separators comes
to, each item of a line read back from its text, and the line put together. -/

namespace Sys2Proof

/-! ## Cutting a text -/

theorem pieces_of_forall_not {isSep : Char → Bool} {t : Text} (h : ∀ c ∈ t, isSep c = false) :
    pieces isSep t = [t] := by
  induction t with
  | nil => rfl
  | cons c t ih =>
    have hc : isSep c = false := h c (List.mem_cons_self ..)
    simp [pieces, hc, ih fun d hd => h d (List.mem_cons_of_mem c hd)]

theorem pieces_append_cons {isSep : Char → Bool} {p : Text} {c : Char} (rest : Text) (h : ∀ d ∈ p, isSep d = false)
    (hc : isSep c = true) : pieces isSep (p ++ c :: rest) = p :: pieces isSep rest := by
  induction p with
  | nil => simp [pieces, hc]
  | cons d p ih =>
    have hd : isSep d = false := h d (List.mem_cons_self ..)
    simp [pieces, hd, ih fun e he => h e (List.mem_cons_of_mem d he)]

/-- The characters a text is cut at. -/
def separators : List Char := [' ', ',', '\n', ';']

/-- A text with no separator in it, and not empty: what a mnemonic or an operand is written as. -/
def Solid (t : Text) : Prop := t ≠ [] ∧ ∀ c ∈ t, c ∉ separators

theorem Solid.not_beq {t : Text} (h : Solid t) {sep : Char} (hsep : sep ∈ separators) : ∀ c ∈ t, (c == sep) = false :=
  fun c hc => beq_false_of_ne fun e => h.2 c hc (e ▸ hsep)

theorem Solid.not_lineSep {t : Text} (h : Solid t) : ∀ c ∈ t, (c == '\n' || c == ';') = false := fun c hc => by
  rw [h.not_beq (by decide) c hc, h.not_beq (by decide) c hc]; rfl

theorem Solid.dropWhile_append {t : Text} (h : Solid t) (rest : Text) :
    (t ++ rest).dropWhile (· == ' ') = t ++ rest := by
  obtain ⟨hne, hsep⟩ := h
  cases t with
  | nil => exact absurd rfl hne
  | cons c t =>
    have hc : c ≠ ' ' := fun e => hsep c (List.mem_cons_self ..) (by rw [e]; decide)
    simp [hc]

theorem Solid.reverse {t : Text} (h : Solid t) : Solid t.reverse :=
  ⟨fun e => h.1 (List.reverse_eq_nil_iff.mp e), fun c hc => h.2 c (List.mem_reverse.mp hc)⟩

/-- A text that begins and ends with solid parts has no blanks at its ends. -/
theorem trimBlanks_of_solid_ends {t p p' rest rest' : Text} (hbegin : t = p ++ rest) (hend : t = rest' ++ p')
    (hp : Solid p) (hp' : Solid p') : trimBlanks t = t := by
  have hdrop : t.dropWhile (· == ' ') = t := by rw [hbegin]; exact hp.dropWhile_append rest
  have hrev : t.reverse.dropWhile (· == ' ') = t.reverse := by
    rw [hend, List.reverse_append]; exact hp'.reverse.dropWhile_append _
  rw [trimBlanks, hdrop, hrev, List.reverse_reverse]

/-! ## Numerals and operands -/

/-- A hexadecimal digit reads back, and is no separator. -/
theorem hexDigit_spec : ∀ d < 16, digit? (hexDigit d) = some d ∧ hexDigit d ∉ separators := by decide

/-- The operands `Instr.toAsm` writes: a register number of one digit, an immediate below 4096. -/
def AsmOperand.Fits : AsmOperand → Prop
  | .reg number => number < 16
  | .imm value => value < 4096
  | _ => True

theorem numeral?_hexNumeral {v : Nat} (h : v < 4096) : numeral? (hexNumeral v) = some v := by
  have hdigit : ∀ d, d < 16 → digit? (hexDigit d) = some d := fun d hd => (hexDigit_spec d hd).1
  calc numeral? (hexNumeral v)
      = digits? 16 0 [hexDigit (v / 256 % 16), hexDigit (v / 16 % 16), hexDigit (v % 16)] := rfl
    _ = some (((0 * 16 + v / 256 % 16) * 16 + v / 16 % 16) * 16 + v % 16) := by
        simp only [digits?, hdigit _ (Nat.mod_lt _ (by decide : 0 < 16)), Nat.mod_lt _ (by decide : 0 < 16), if_true]
    _ = some v := by congr 1; omega

theorem operand?_text {o : AsmOperand} (h : o.Fits) : operand? o.text = some o := by
  cases o with
  | reg number =>
    calc operand? (AsmOperand.reg number).text = (digit? (hexDigit number)).map .reg := rfl
      _ = some (.reg number) := by rw [(hexDigit_spec number h).1, Option.map_some]
  | imm value =>
    calc operand? (AsmOperand.imm value).text = (numeral? (hexNumeral value)).map .imm := rfl
      _ = some (.imm value) := by rw [numeral?_hexNumeral h, Option.map_some]
  | index | glyph | bcd | memIndex => rfl

theorem AsmOperand.solid_text {o : AsmOperand} (h : o.Fits) : Solid o.text := by
  have hdigit : ∀ v, hexDigit (v % 16) ∉ separators := fun v => (hexDigit_spec _ (Nat.mod_lt v (by decide))).2
  cases o with
  | reg number =>
    refine ⟨List.cons_ne_nil _ _, List.forall_mem_cons.mpr ⟨by decide, List.forall_mem_singleton.mpr ?_⟩⟩
    exact (hexDigit_spec number h).2
  | imm value =>
    refine ⟨List.cons_ne_nil _ _, List.forall_mem_cons.mpr ⟨by decide, List.forall_mem_cons.mpr ⟨by decide, ?_⟩⟩⟩
    exact List.forall_mem_cons.mpr ⟨hdigit _,
      List.forall_mem_cons.mpr ⟨hdigit _, List.forall_mem_singleton.mpr (hdigit _)⟩⟩
  | index | glyph | bcd | memIndex => simp [Solid, AsmOperand.text, separators]

theorem AsmMnemonic.solid_text (m : AsmMnemonic) : Solid m.text := by
  cases m <;> simp [Solid, AsmMnemonic.text, separators]

theorem mnemonic?_text (m : AsmMnemonic) : mnemonic? m.text = some m := by
  cases m <;> rfl

/-! ## The operands of a line -/

/-- Operands with commas between them. -/
def operandsText (first : AsmOperand) (more : List AsmOperand) : Text :=
  first.text ++ (more.map fun o => ',' :: o.text).flatten

theorem operandsText_cons (first second : AsmOperand) (more : List AsmOperand) :
    operandsText first (second :: more) = first.text ++ ',' :: operandsText second more := by
  simp [operandsText]

/-- Cut at the commas, the operands are there one by one. -/
theorem pieces_operandsText {first : AsmOperand} {more : List AsmOperand} (h : ∀ o ∈ first :: more, o.Fits) :
    pieces (· == ',') (operandsText first more) = (first :: more).map AsmOperand.text := by
  have hsolid : Solid first.text := AsmOperand.solid_text (h first (List.mem_cons_self ..))
  induction more generalizing first with
  | nil => rw [operandsText, List.map_nil, List.flatten_nil, List.append_nil,
      pieces_of_forall_not (hsolid.not_beq (by decide))]; rfl
  | cons second more ih =>
    have hmore : ∀ o ∈ second :: more, o.Fits := fun o ho => h o (List.mem_cons_of_mem first ho)
    rw [operandsText_cons, pieces_append_cons _ (hsolid.not_beq (by decide)) rfl,
      ih hmore (AsmOperand.solid_text (hmore second (List.mem_cons_self ..)))]; rfl

theorem mapM_operand?_text {l : List AsmOperand} (h : ∀ o ∈ l, o.Fits) :
    (l.map AsmOperand.text).mapM operand? = some l := by
  induction l with
  | nil => rfl
  | cons o l ih =>
    obtain ⟨ho, hl⟩ := List.forall_mem_cons.mp h
    simp [operand?_text ho, ih hl]

theorem readAll_operandsText {first : AsmOperand} {more : List AsmOperand} (h : ∀ o ∈ first :: more, o.Fits) :
    readAll operand? (operandsText first more) = some (first :: more) := by
  rw [readAll, pieces_operandsText h, mapM_operand?_text h]

/-- The last operand ends the text, and only commas stand between the operands. -/
theorem operandsText_spec {first : AsmOperand} {more : List AsmOperand} (h : ∀ o ∈ first :: more, o.Fits) :
    (∃ rest p, operandsText first more = rest ++ p ∧ Solid p) ∧
      ∀ c ∈ operandsText first more, (c == ' ') = false ∧ (c == '\n' || c == ';') = false := by
  have hsolid : Solid first.text := AsmOperand.solid_text (h first (List.mem_cons_self ..))
  have hfirst : ∀ c ∈ first.text, (c == ' ') = false ∧ (c == '\n' || c == ';') = false := fun c hc =>
    ⟨hsolid.not_beq (by decide) c hc, hsolid.not_lineSep c hc⟩
  induction more generalizing first with
  | nil =>
    rw [show operandsText first [] = first.text from List.append_nil _]
    exact ⟨⟨[], first.text, rfl, hsolid⟩, hfirst⟩
  | cons second more ih =>
    have hmore : ∀ o ∈ second :: more, o.Fits := fun o ho => h o (List.mem_cons_of_mem first ho)
    have hsolid' : Solid second.text := AsmOperand.solid_text (hmore second (List.mem_cons_self ..))
    obtain ⟨⟨rest, p, heq, hp⟩, hchars⟩ := ih hmore hsolid' fun c hc =>
      ⟨hsolid'.not_beq (by decide) c hc, hsolid'.not_lineSep c hc⟩
    rw [operandsText_cons]
    refine ⟨⟨first.text ++ ',' :: rest, p, by simp [heq], hp⟩, fun c hc => ?_⟩
    rcases List.mem_append.mp hc with hc | hc
    · exact hfirst c hc
    · rcases List.mem_cons.mp hc with rfl | hc
      · decide
      · exact hchars c hc

/-! ## The line -/

theorem AsmLine.text_cons (m : AsmMnemonic) (first : AsmOperand) (more : List AsmOperand) :
    (AsmLine.mk m (first :: more)).text = m.text ++ ' ' :: operandsText first more :=
  List.append_assoc ..

/-- Cut at the blanks, a line without operands is its mnemonic. -/
theorem AsmLine.pieces_text_nil (m : AsmMnemonic) : pieces (· == ' ') (AsmLine.mk m []).text = [m.text] :=
  pieces_of_forall_not (m.solid_text.not_beq (by decide))

/-- Cut at the blanks, a line with operands is its mnemonic and its operands. -/
theorem AsmLine.pieces_text_cons (m : AsmMnemonic) {first : AsmOperand} {more : List AsmOperand}
    (h : ∀ o ∈ first :: more, o.Fits) :
    pieces (· == ' ') (AsmLine.mk m (first :: more)).text = [m.text, operandsText first more] := by
  rw [AsmLine.text_cons, pieces_append_cons _ (m.solid_text.not_beq (by decide)) rfl,
    pieces_of_forall_not fun c hc => ((operandsText_spec h).2 c hc).1]

/-- A line whose operands fit reads back from its text. -/
theorem asmLine?_text {a : AsmLine} (h : ∀ o ∈ a.operands, o.Fits) : asmLine? a.text = some a := by
  obtain ⟨m, operands⟩ := a
  cases operands with
  | nil => simp [asmLine?, AsmLine.pieces_text_nil, mnemonic?_text]
  | cons first more => simp [asmLine?, AsmLine.pieces_text_cons m h, mnemonic?_text, readAll_operandsText h]

/-- A line of an instruction is no `DB` line. -/
theorem item?_text {a : AsmLine} (h : ∀ o ∈ a.operands, o.Fits) : item? a.text = a.read?.map encode := by
  rw [item?, asmLine?_text h]
  obtain ⟨m, operands⟩ := a
  cases operands with
  | nil => rw [AsmLine.pieces_text_nil]; cases m <;> rfl
  | cons first more => rw [AsmLine.pieces_text_cons m h]; cases m <;> rfl

/-- A line begins with its mnemonic and ends with a mnemonic or an operand, and no item separator is in it. -/
theorem AsmLine.text_spec {a : AsmLine} (h : ∀ o ∈ a.operands, o.Fits) :
    trimBlanks a.text = a.text ∧ a.text ≠ [] ∧ ∀ c ∈ a.text, (c == '\n' || c == ';') = false := by
  obtain ⟨m, operands⟩ := a
  have hm : Solid m.text := m.solid_text
  cases operands with
  | nil =>
    exact ⟨trimBlanks_of_solid_ends (List.append_nil m.text).symm (List.nil_append m.text).symm hm hm, hm.1,
      hm.not_lineSep⟩
  | cons first more =>
    obtain ⟨⟨rest, p, heq, hp⟩, hchars⟩ := operandsText_spec h
    rw [AsmLine.text_cons]
    refine ⟨trimBlanks_of_solid_ends rfl (rest' := m.text ++ ' ' :: rest) (p' := p) (by simp [heq]) hm hp,
      fun e => hm.1 (List.append_eq_nil_iff.mp e).1, fun c hc => ?_⟩
    rcases List.mem_append.mp hc with hc | hc
    · exact hm.not_lineSep c hc
    · rcases List.mem_cons.mp hc with rfl | hc
      · decide
      · exact (hchars c hc).2

/-- A listing of one line assembles to the line's bytes. -/
theorem assemble?_text {a : AsmLine} (h : ∀ o ∈ a.operands, o.Fits) : assemble? a.text = a.read?.map encode := by
  obtain ⟨htrim, hne, hsep⟩ := AsmLine.text_spec h
  have hone : pieces (fun c => c == '\n' || c == ';') a.text = [a.text] := pieces_of_forall_not hsep
  rw [assemble?, hone]
  cases hread : a.read? <;> simp [htrim, hne, item?_text h, hread]

/-- The operands of an instruction's line fit: the fields are bounded by their types. -/
theorem Instr.fits_toAsm (i : Instr) : ∀ o ∈ i.toAsm.operands, o.Fits := by
  have hkk : ∀ kk : Byte, kk.toNat < 4096 := fun kk => Nat.lt_trans kk.isLt (by decide)
  have hn : ∀ n : Fin 16, n.val < 4096 := fun n => Nat.lt_trans n.isLt (by decide)
  cases i with
  | ret => simp [Instr.toAsm]
  | call nnn | ldINnn nnn => simp [Instr.toAsm, AsmOperand.Fits, nnn.isLt]
  | ldVxKk x kk | addVxKk x kk => simp [Instr.toAsm, AsmOperand.Fits, hkk]
  | drwVxVyN x y n => simp [Instr.toAsm, AsmOperand.Fits, hn]
  | ldFVx x | ldBVx x | ldVxI x => simp [Instr.toAsm, AsmOperand.Fits]

/-- Settles O8: the instruction's line reads back as the line, the line as the instruction. -/
theorem writtenLineAssembles : Obligations.WrittenLineAssembles := by
  intro i
  rw [Instr.text, assemble?_text i.fits_toAsm, (wellFormedness i).2, Option.map_some]

end Sys2Proof
end
